-- ==== Sys2Proof/Word.lean ====
section
/-! DEFINITION. The word types of the block: 00_scope.md R15 (bit 0 is the least significant bit; everything is unsigned). -/

namespace Sys2Proof

/-- A register, bus word, block offset or index: 32 bits (10_state.md R20, 20_memory.md R43). -/
abbrev Word := BitVec 32

/-- A packed colour: 24 bits, `red ++ green ++ blue` (00_scope.md R17, 40_buffer_grid.md R80). -/
abbrev Color := BitVec 24

/-- A grid coordinate: 16 bits, unsigned (10_state.md R28). -/
abbrev Coord := BitVec 16

/-- One colour channel, or one byte lane of a bus word: 8 bits (40_buffer_grid.md R80, 20_memory.md R45). -/
abbrev Byte := BitVec 8

end Sys2Proof
end

