-- ==== Sys2Proof/Config.lean ====
section
/-! DEFINITION. The construction parameters of the block (00_scope.md R8 to R14): fixed when the block is built,
never changed by a step. The spec leaves their values OPEN (92_eei_decisions.md D2). They travel in
`State.cfg`, so that a statement about every state is a statement about every configuration
(notes/assumptions/1.md). -/

namespace Sys2Proof

/-- `P_MODE`, the transmission discipline (00_scope.md R11). -/
inductive TxMode where
  /-- Peripheral-clocked. -/
  | periph
  /-- Manually clocked. -/
  | manual
  deriving DecidableEq, Repr

/-- The nine construction parameters (00_scope.md R8 to R14; 92_eei_decisions.md D2). -/
structure Config where
  /-- `P_WIDTH`. -/
  width : Nat
  /-- `P_HEIGHT`. -/
  height : Nat
  /-- `P_HAS_BG`: the background buffer exists. -/
  hasBg : Bool
  /-- `P_MODE`. -/
  mode : TxMode
  /-- `P_CLAMP`: translation clamps out-of-range coordinates. -/
  clamp : Bool
  /-- `P_FRAME`: the framing line is driven in PERIPH mode. -/
  frame : Bool
  /-- `P_CLKDIV`, half of one bit period in Engine clock cycles. -/
  clkdiv : Nat
  /-- `P_SETTLE`, length of one settle-low pulse in Engine clock cycles. -/
  settle : Nat
  /-- `P_BYTEGAP`, idle cycles between bytes in PERIPH mode. -/
  byteGap : Nat
  deriving DecidableEq, Repr

/-- `N = P_WIDTH * P_HEIGHT`, the pixel count (00_scope.md R8). -/
def Config.n (c : Config) : Nat := c.width * c.height

/-- FRM is driven by frames: PERIPH mode with `P_FRAME = 1` (00_scope.md R13, 10_state.md R39). -/
def Config.framed (c : Config) : Bool := c.mode = .periph && c.frame

/-- DESIGN CHOICE (notes/assumptions/2.md): the configuration of `State.reset`. The spec gives none.
The 3x3 panel of 95_test_vectors.md, with a background buffer, so that all eight commands are legal. -/
def Config.sample : Config :=
  { width := 3, height := 3, hasBg := true, mode := .periph, clamp := false, frame := true,
    clkdiv := 4, settle := 1000, byteGap := 0 }

/-- A 1-D strip of `length` pixels is the grid `length` x 1 (00_scope.md R9). -/
def Config.strip (c : Config) (length : Nat) : Config := { c with width := length, height := 1 }

end Sys2Proof
end

