-- ==== Sys2Proof/Syntax.lean ====
section
/-! DEFINITION. The command set: one constructor per row of spec/opcode_table.json (30_encoding.md R65).
A command word carries no operand (30_encoding.md R64): every operand comes from the latch. -/

namespace Sys2Proof

/-- The eight commands of the block (30_encoding.md R65). -/
inductive Instr where
  /-- NOP, 40_buffer_grid.md R87. -/
  | nop
  /-- SETPIX, 40_buffer_grid.md R88. -/
  | setpix
  /-- SETPIXXY, 40_buffer_grid.md R89. -/
  | setpixxy
  /-- TRANSLATE, 40_buffer_grid.md R90. -/
  | translate
  /-- CLEAR, 40_buffer_grid.md R91. -/
  | clear
  /-- CLEARBG, 40_buffer_grid.md R92. -/
  | clearbg
  /-- SETRANGE, 40_buffer_grid.md R93. -/
  | setrange
  /-- TRANSMIT, 45_transmit.md R99. -/
  | transmit
  deriving DecidableEq, Repr

end Sys2Proof
end

