-- ==== Sys2Proof/WellFormed.lean ====
section
/-! DEFINITION. The checks on a configuration (00_scope.md R8, R14) and on a command in a configuration
(30_encoding.md R69). -/

namespace Sys2Proof

/-- The configuration lies in the ranges of 00_scope.md R8 and R14 (92_eei_decisions.md D3).
The model refuses any other (00_scope.md R19, 93_implementation_defined.md I23). -/
def Config.wellFormed (c : Config) : Bool :=
  decide (1 ≤ c.width) && decide (c.width ≤ 65535) && decide (1 ≤ c.height) && decide (c.height ≤ 65535)
    && decide (c.n ≤ 2 ^ 22) && decide (1 ≤ c.clkdiv) && decide (c.clkdiv ≤ 65535)
    && decide (1 ≤ c.settle) && decide (c.settle < 2 ^ 32) && decide (c.byteGap < 2 ^ 32)

/-- The command is legal in this configuration: CLEARBG needs a background buffer, and no other
command's legality depends on the configuration (30_encoding.md R69). -/
def Instr.wellFormed (c : Config) : Instr → Bool
  | .nop => true
  | .setpix => true
  | .setpixxy => true
  | .translate => true
  | .clear => true
  | .clearbg => c.hasBg
  | .setrange => true
  | .transmit => true

end Sys2Proof
end

