-- ==== Sys2Proof/Decode.lean ====
section
/-! DEFINITION. Decoding a command word (30_encoding.md R62, R63, R65, R68), total on any word, refusing by
name, and the encoder. How a word is decoded does not depend on the configuration (R62); which decoded
command is legal does (R69), and that is asked by `legalInstr`. -/

namespace Sys2Proof

/-- Why a word is no command (30_encoding.md R68). -/
inductive DecodeError where
  /-- A bit of 31:9 is set. -/
  | reservedBits
  /-- OP is `0x07` or more. -/
  | reservedOpcode
  /-- A = 1 with an OP other than `0x01`. -/
  | addressMode
  deriving DecidableEq, Repr

/-- OP, bits 7:0 of a command word (30_encoding.md R63). -/
def cmdOp (v : Word) : BitVec 8 := v.extractLsb' 0 8

/-- A, bit 8 of a command word (30_encoding.md R63). -/
def cmdA (v : Word) : Bool := v.getLsbD 8

/-- RSV, bits 31:9 of a command word, which must be 0 (30_encoding.md R63). -/
def cmdRsv (v : Word) : BitVec 23 := v.extractLsb' 9 23

/-- The opcode map of 30_encoding.md R65 on the fields OP and A. -/
def decodeFields (op : Nat) (a : Bool) : Except DecodeError Instr :=
  match op, a with
  | 0, false => .ok .nop
  | 1, false => .ok .setpix
  | 1, true => .ok .setpixxy
  | 2, false => .ok .translate
  | 3, false => .ok .clear
  | 4, false => .ok .clearbg
  | 5, false => .ok .setrange
  | 6, false => .ok .transmit
  | n, _ => if 7 ≤ n then .error .reservedOpcode else .error .addressMode

/-- The command a word stands for, or why it stands for none. -/
def decode (v : Word) : Except DecodeError Instr :=
  if cmdRsv v ≠ 0 then .error .reservedBits else decodeFields (cmdOp v).toNat (cmdA v)

/-- The command word of 30_encoding.md R65. -/
def encode : Instr → Word
  | .nop => 0x00000000
  | .setpix => 0x00000001
  | .setpixxy => 0x00000101
  | .translate => 0x00000002
  | .clear => 0x00000003
  | .clearbg => 0x00000004
  | .setrange => 0x00000005
  | .transmit => 0x00000006

/-- The command the word stands for in this configuration, if it is legal there (30_encoding.md R68, R69). -/
def legalInstr (c : Config) (v : Word) : Option Instr :=
  match decode v with
  | .ok i => if i.wellFormed c then some i else none
  | .error _ => none

/-- The host's reading of an opcode-table row: every command is one 32-bit word (30_encoding.md R62), so
the row's bits are the word itself, and a number of more than 32 bits is no command. -/
def decodeTableWord (nbits w : Nat) : Option Instr :=
  if nbits ≤ 32 ∧ w < 2 ^ 32 then
    match decode (BitVec.ofNat 32 w) with
    | .ok i => some i
    | .error _ => none
  else none

end Sys2Proof
end

