-- ==== Sys2Proof/Machine/HostProgram.lean ====
section
/-! DEFINITION. The Host's program notation (30_encoding.md R70 to R79): bus operations, host-side operations,
and the pseudo-instructions with their expansions; labels are resolved to places in the program. -/

namespace Sys2Proof.Machine

/-- The host registers `h0` to `h7` (30_encoding.md R71). -/
inductive HReg where
  | h0 | h1 | h2 | h3 | h4 | h5 | h6 | h7
  deriving DecidableEq, Repr

/-- The twelve registers of the block (10_state.md R20). -/
inductive RegName where
  | cmd | status | idx | idx2 | color | xy | result | cfg | geom | npix | clkdiv | settle
  deriving DecidableEq, Repr

/-- Expressions (30_encoding.md R71): 32-bit constants, host registers, `pack(r,g,b)`, `xy(x,y)`. -/
inductive HExpr where
  | const (w : Word)
  | reg (h : HReg)
  | pack (r g b : Byte)
  | xy (x y : Coord)
  deriving DecidableEq, Repr

/-- What a bus operation names (30_encoding.md R70): a register, a window cell, or a block offset
(the last for the accesses of 20_memory.md R43 that the notation has no name for). -/
inductive Place where
  | reg (r : RegName)
  | fg (i : HExpr)
  | bg (i : HExpr)
  | offset (a : HExpr)
  deriving DecidableEq, Repr

/-- One operation of a host program (30_encoding.md R70, R71). `T` is how a branch names its target: a
label where the program is written, an index into the program where it runs. `size` is the access size in
bytes: `W` and `R` of the notation are accesses of 4 bytes. -/
inductive HostOp (T : Type) where
  | write (p : Place) (size : Nat) (e : HExpr)
  | read (h : HReg) (p : Place) (size : Nat)
  | mov (h : HReg) (e : HExpr)
  | add (h : HReg) (a e : HExpr)
  | sub (h : HReg) (a e : HExpr)
  | and (h : HReg) (a e : HExpr)
  | bnz (h : HReg) (target : T)
  | bltu (a b : HExpr) (target : T)
  | jump (target : T)
  | halt
  deriving DecidableEq, Repr

/-- A host program ready to run: branch targets are indexes into it. -/
abbrev HostProg := List (HostOp Nat)

/-- `W NAME, e` (30_encoding.md R70). -/
def HostOp.writeReg {T : Type} (r : RegName) (e : HExpr) : HostOp T := .write (.reg r) 4 e

/-- `W CMD, MNEMONIC` (30_encoding.md R70). -/
def HostOp.writeCmd {T : Type} (i : Instr) : HostOp T := .write (.reg .cmd) 4 (.const (encode i))

/-- `R h, NAME` (30_encoding.md R70). -/
def HostOp.readReg {T : Type} (h : HReg) (r : RegName) : HostOp T := .read h (.reg r) 4

/-- The pseudo-instructions (30_encoding.md R72 to R79), each the source's API call. -/
inductive Pseudo where
  | poll
  | setPixel (i c : HExpr)
  | setPixelRgb (i : HExpr) (r g b : Byte)
  | setXY (x y : Coord) (c : HExpr)
  | translate (h : HReg) (x y : Coord)
  | clear
  | clearBg
  | setRange (start stop c : HExpr)
  | showFrame
  /-- `ALL c`; `h` is the host register that obtains N (30_encoding.md R79, notes/assumptions/12.md). -/
  | all (h : HReg) (c : HExpr)
  deriving DecidableEq, Repr

/-- `POLL` placed at index `p`: its fresh label is `p` itself (30_encoding.md R72). -/
def pollAt (p : Nat) : HostProg :=
  [.readReg .h7 .status, .and .h7 (.reg .h7) (.const 1), .bnz .h7 p]

/-- Operand and command writes, then `POLL`, placed at index `p`: the shape of R73 to R78. -/
def thenPollAt (p : Nat) (ops : HostProg) : HostProg := ops ++ pollAt (p + ops.length)

/-- The expansion of a pseudo-instruction placed at index `p` (30_encoding.md R72 to R79). -/
def Pseudo.expandAt (p : Nat) : Pseudo → HostProg
  | .poll => pollAt p
  | .setPixel i c => thenPollAt p [.writeReg .idx i, .writeReg .color c, .writeCmd .setpix]
  | .setPixelRgb i r g b =>
    thenPollAt p [.writeReg .idx i, .writeReg .color (.pack r g b), .writeCmd .setpix]
  | .setXY x y c => thenPollAt p [.writeReg .xy (.xy x y), .writeReg .color c, .writeCmd .setpixxy]
  | .translate h x y =>
    thenPollAt p [.writeReg .xy (.xy x y), .writeCmd .translate] ++ [.readReg h .result]
  | .clear => thenPollAt p [.writeCmd .clear]
  | .clearBg => thenPollAt p [.writeCmd .clearbg]
  | .setRange s e c =>
    thenPollAt p [.writeReg .idx s, .writeReg .idx2 e, .writeReg .color c, .writeCmd .setrange]
  | .showFrame => thenPollAt p [.writeCmd .transmit]
  | .all h c =>
    thenPollAt p [.readReg h .npix, .sub h (.reg h) (.const 1), .writeReg .idx (.const 0),
      .writeReg .idx2 (.reg h), .writeReg .color c, .writeCmd .setrange]

/-- A label's name; the spec fixes no spelling, so a number (notes/assumptions/12.md). -/
structure Label where
  id : Nat
  deriving DecidableEq, Repr

/-- One line of a host program as written (30_encoding.md R70 to R79). -/
inductive Stmt where
  | label (l : Label)
  | op (o : HostOp Label)
  | pseudo (q : Pseudo)
  deriving DecidableEq, Repr

/-- How many operations a line assembles to. -/
def Stmt.size : Stmt → Nat
  | .label _ => 0
  | .op _ => 1
  | .pseudo q => (q.expandAt 0).length

/-- Where each label stands, for lines placed from index `p` on, first place first. -/
def labelPlaces (p : Nat) : List Stmt → List (Label × Nat)
  | [] => []
  | .label l :: rest => (l, p) :: labelPlaces p rest
  | s :: rest => labelPlaces (p + s.size) rest

/-- An operation with its label replaced by the place the label marks, if it marks one. DESIGN CHOICE
(notes/assumptions/16.md): a label that stands at two places means the first; the spec says only that a
label marks a place (30_encoding.md R71). -/
def HostOp.resolve (places : List (Label × Nat)) : HostOp Label → Option (HostOp Nat)
  | .write p n e => some (.write p n e)
  | .read h p n => some (.read h p n)
  | .mov h e => some (.mov h e)
  | .add h a e => some (.add h a e)
  | .sub h a e => some (.sub h a e)
  | .and h a e => some (.and h a e)
  | .bnz h l => (places.lookup l).map (.bnz h)
  | .bltu a b l => (places.lookup l).map (.bltu a b)
  | .jump l => (places.lookup l).map .jump
  | .halt => some .halt

/-- The lines from index `p` on, with every label resolved. -/
def assembleFrom (places : List (Label × Nat)) (p : Nat) : List Stmt → Option HostProg
  | [] => some []
  | .label _ :: rest => assembleFrom places p rest
  | .op o :: rest =>
    match o.resolve places, assembleFrom places (p + 1) rest with
    | some o', some r => some (o' :: r)
    | _, _ => none
  | .pseudo q :: rest =>
    (assembleFrom places (p + (q.expandAt p).length) rest).map (q.expandAt p ++ ·)

/-- The program a list of lines stands for; `none` where a branch names a label that stands nowhere
(notes/assumptions/16.md). -/
def assemble (lines : List Stmt) : Option HostProg := assembleFrom (labelPlaces 0 lines) 0 lines

end Sys2Proof.Machine
end

