-- ==== Sys2Proof/Machine/State.lean ====
section
/-! DEFINITION. The state of the machine (10_state.md R20 to R41), as plain data, its value after power-on, and the
reasons a step can stop. -/

namespace Sys2Proof.Machine

/-- STATUS (10_state.md R22): BUSY and the five sticky condition flags. -/
structure Status where
  busy : Bool
  drop : Bool
  ovf : Bool
  ill : Bool
  coll : Bool
  buserr : Bool
  deriving DecidableEq, Repr

/-- The five conditions, each a sticky flag of STATUS (60_exceptions.md R108 to R112). -/
inductive StickyFlag where
  | drop | ovf | ill | coll | buserr
  deriving DecidableEq, Repr

/-- A pixel buffer: `(index, colour)` pairs of the cells that are not 0, indexes strictly rising; every
unlisted cell reads 0, its reset value (10_state.md R35, R36, R41; notes/assumptions/6.md). -/
abbrev Memory := List (Nat × Color)

/-- The two pixel buffers (10_state.md R35, R36). -/
inductive Buffer where
  | fg | bg
  deriving DecidableEq, Repr

/-- The Engine's operand latch L (10_state.md R37). -/
structure Latch where
  op : BitVec 8
  a : Bool
  idx : Word
  idx2 : Word
  color : Color
  x : Coord
  y : Coord
  deriving DecidableEq, Repr

/-- Wire events (45_transmit.md R97). -/
inductive WireEvent where
  | bit (b : Bool)
  | settle
  | frmLow
  | frmHigh
  | reset
  deriving DecidableEq, Repr

/-- The three output lines (10_state.md R39). -/
structure Lines where
  clk : Bool
  dat : Bool
  frm : Bool
  deriving DecidableEq, Repr

/-- The levels of the lines at reset (10_state.md R39, R41). -/
def Lines.atReset : Lines := { clk := false, dat := false, frm := true }

/-- Who moves in one step: an agent of 00_scope.md R18, or reset (70_reset_and_hazards.md R124). -/
inductive Turn where
  | host | engine | reset
  deriving DecidableEq, Repr

/-- The host registers (30_encoding.md R71). -/
structure HostRegs where
  h0 : Word
  h1 : Word
  h2 : Word
  h3 : Word
  h4 : Word
  h5 : Word
  h6 : Word
  h7 : Word
  deriving DecidableEq, Repr

/-- All 0 at program start (30_encoding.md R71). -/
def HostRegs.zero : HostRegs := { h0 := 0, h1 := 0, h2 := 0, h3 := 0, h4 := 0, h5 := 0, h6 := 0, h7 := 0 }

/-- The Host: its registers, its program and the index of its next operation (30_encoding.md R70, R71;
notes/assumptions/4.md). -/
structure HostState where
  regs : HostRegs
  prog : HostProg
  pc : Nat
  deriving DecidableEq, Repr

/-- The machine: the block (10_state.md, model state record), the configuration it was built with, the Host
that drives it, and who moves next. -/
structure State where
  /-- The construction parameters; no step changes them (notes/assumptions/1.md). -/
  cfg : Config
  /-- STATUS, R22. -/
  status : Status
  /-- IDX, R25. -/
  idx : Word
  /-- IDX2, R26. -/
  idx2 : Word
  /-- COLOR bits 23:0, R27. -/
  color : Color
  /-- XY, R28. -/
  xy : Word
  /-- RESULT, R29. -/
  result : Word
  /-- The foreground buffer, R35. -/
  fg : Memory
  /-- The background buffer, R36; nothing is listed in it when `P_HAS_BG = 0`. -/
  bg : Memory
  /-- The operand latch L, R37. -/
  latch : Latch
  /-- The sequencer S, R38. -/
  seq : Option (List WireEvent)
  /-- CLK, DAT, FRM, R39. -/
  lines : Lines
  /-- The wire trace W, oldest event first, R40. -/
  trace : List WireEvent
  /-- The Host and its program, 30_encoding.md R70, R71. -/
  host : HostState
  /-- Who moves next, first turn first; when empty, the Engine while BUSY = 1 and else the Host
  (00_scope.md R18, notes/assumptions/3.md). -/
  turns : List Turn
  deriving DecidableEq, Repr

/-- Why the machine stops. The block itself never does (00_scope.md R19): both reasons name states that no
run of a well-formed configuration reaches (notes/assumptions/8.md). -/
inductive Fault where
  /-- Raised by the Engine's step when BUSY = 1 and the latch holds a word that is no legal command:
  acceptance never lets one in. Safe. -/
  | heldCommandIllegal
  /-- Raised by TRANSMIT when the sequencer holds an empty list, so that `head(S)` of 45_transmit.md R99
  has no value: S is set to `none` as soon as its list is empty. Safe. -/
  | sequencerEmpty
  deriving DecidableEq, Repr

/-- Why the machine gives no meaning. -/
inductive Refusal where
  /-- Raised by an arm of `exec` for a command without a meaning; no arm of this model uses it. Safe. -/
  | notModelled (mnemonic : String)
  /-- Raised by `step` for a configuration outside the ranges of 00_scope.md R8 and R14, which R19 and
  93_implementation_defined.md I23 say to refuse. Safe. -/
  | configOutOfRange
  deriving DecidableEq, Repr

/-- STATUS at reset (10_state.md R41). -/
def Status.atReset : Status :=
  { busy := false, drop := false, ovf := false, ill := false, coll := false, buserr := false }

/-- The operand latch at reset (10_state.md R41). -/
def Latch.atReset : Latch := { op := 0, a := false, idx := 0, idx2 := 0, color := 0, x := 0, y := 0 }

/-- The block of configuration `c` at power-on (70_reset_and_hazards.md R125, 10_state.md R41), with a Host
that has no program. -/
def State.powerOn (c : Config) : State :=
  { cfg := c, status := .atReset, idx := 0, idx2 := 0, color := 0, xy := 0, result := 0,
    fg := [], bg := [], latch := .atReset, seq := none, lines := .atReset, trace := [],
    host := { regs := .zero, prog := [], pc := 0 }, turns := [] }

/-- The machine right after power-on, in the sample configuration (notes/assumptions/2.md). -/
def State.reset : State := .powerOn .sample

end Sys2Proof.Machine
end

