-- ==== Sys2Proof/Machine/Flags.lean ====
section
/-! DEFINITION. The flags of STATUS (10_state.md R22 to R24): raising one, clearing by a write, reading the word. -/

namespace Sys2Proof.Machine

/-- The value of a condition's flag. -/
def Status.flag (st : Status) : StickyFlag → Bool
  | .drop => st.drop
  | .ovf => st.ovf
  | .ill => st.ill
  | .coll => st.coll
  | .buserr => st.buserr

/-- The code of a condition: its flag's bit number in STATUS (60_exceptions.md R108 to R112). -/
def StickyFlag.code : StickyFlag → Nat
  | .drop => 1
  | .ovf => 2
  | .ill => 3
  | .coll => 4
  | .buserr => 5

/-- Set one sticky flag and nothing else (00_scope.md R16, 60_exceptions.md R107). -/
def Status.set (f : StickyFlag) (st : Status) : Status :=
  match f with
  | .drop => { st with drop := true }
  | .ovf => { st with ovf := true }
  | .ill => { st with ill := true }
  | .coll => { st with coll := true }
  | .buserr => { st with buserr := true }

/-- Write-one-to-clear: each sticky flag whose bit of `v` is 1 becomes 0, every other flag and BUSY stay
(10_state.md R24). -/
def Status.clearBy (v : Word) (st : Status) : Status :=
  { busy := st.busy
    drop := st.drop && !v.getLsbD 1
    ovf := st.ovf && !v.getLsbD 2
    ill := st.ill && !v.getLsbD 3
    coll := st.coll && !v.getLsbD 4
    buserr := st.buserr && !v.getLsbD 5 }

/-- STATUS as a word (10_state.md R22): reserved bits 31:6 read 0. -/
def Status.toWord (st : Status) : Word :=
  0#26 ++ BitVec.ofBool st.buserr ++ BitVec.ofBool st.coll ++ BitVec.ofBool st.ill ++ BitVec.ofBool st.ovf
    ++ BitVec.ofBool st.drop ++ BitVec.ofBool st.busy

end Sys2Proof.Machine
end

