-- ==== Sys2Proof/Machine/Operands.lean ====
section
/-! DEFINITION. Operands: the colour format (40_buffer_grid.md R80), the fields of XY (10_state.md R28), the operand
latch (10_state.md R37), byte lanes (20_memory.md R45), and the Host's registers, expressions and places
(30_encoding.md R70, R71). -/

namespace Sys2Proof.Machine

/-- `pack(r,g,b)`, 24 bits (40_buffer_grid.md R80). -/
def pack (r g b : Byte) : Color := (r.setWidth 24 <<< 16) ||| (g.setWidth 24 <<< 8) ||| b.setWidth 24

/-- `red(c) = c[23:16]` (40_buffer_grid.md R80). -/
def red (c : Color) : Byte := c.extractLsb' 16 8

/-- `green(c) = c[15:8]` (40_buffer_grid.md R80). -/
def green (c : Color) : Byte := c.extractLsb' 8 8

/-- `blue(c) = c[7:0]` (40_buffer_grid.md R80). -/
def blue (c : Color) : Byte := c.extractLsb' 0 8

/-- A cell or COLOR as a 32-bit word: bits 31:24 are 0 (10_state.md R27, R35). -/
def colorWord (c : Color) : Word := c.setWidth 32

/-- What a cell or COLOR keeps of a written word: `v[23:0]` (10_state.md R27, 20_memory.md R49). -/
def wordColor (v : Word) : Color := v.setWidth 24

/-- `xy(x,y) = (y << 16) | x` (30_encoding.md R71). -/
def packXY (x y : Coord) : Word := (y.setWidth 32 <<< 16) ||| x.setWidth 32

/-- X, bits 15:0 of XY (10_state.md R28). -/
def fieldX (v : Word) : Coord := v.extractLsb' 0 16

/-- Y, bits 31:16 of XY (10_state.md R28). -/
def fieldY (v : Word) : Coord := v.extractLsb' 16 16

/-- Byte lane `k` of a bus word, bits `[8k+7:8k]` (20_memory.md R45). No access observes it. -/
def byteLane (k : Nat) (v : Word) : Byte := v.extractLsb' (8 * k) 8

/-- The latch that accepting the command word `v` fills (10_state.md R37, 30_encoding.md R66). -/
def latchOf (v : Word) (s : State) : Latch :=
  { op := cmdOp v, a := cmdA v, idx := s.idx, idx2 := s.idx2, color := s.color,
    x := fieldX s.xy, y := fieldY s.xy }

/-- The command word the latch holds: `L.op` and `L.a`, with the reserved bits 0. -/
def Latch.word (l : Latch) : Word := 0#23 ++ BitVec.ofBool l.a ++ l.op

/-- The value of a host register. -/
def HostRegs.get (r : HostRegs) : HReg → Word
  | .h0 => r.h0
  | .h1 => r.h1
  | .h2 => r.h2
  | .h3 => r.h3
  | .h4 => r.h4
  | .h5 => r.h5
  | .h6 => r.h6
  | .h7 => r.h7

/-- Give a host register a value. -/
def HostRegs.set (h : HReg) (v : Word) (r : HostRegs) : HostRegs :=
  match h with
  | .h0 => { r with h0 := v }
  | .h1 => { r with h1 := v }
  | .h2 => { r with h2 := v }
  | .h3 => { r with h3 := v }
  | .h4 => { r with h4 := v }
  | .h5 => { r with h5 := v }
  | .h6 => { r with h6 := v }
  | .h7 => { r with h7 := v }

/-- The value of an expression (30_encoding.md R71). -/
def HExpr.eval (r : HostRegs) : HExpr → Word
  | .const w => w
  | .reg h => r.get h
  | .pack a b c => colorWord (Machine.pack a b c)
  | .xy x y => packXY x y

/-- The block offset of a register (10_state.md R20). -/
def RegName.offset : RegName → Word
  | .cmd => 0x000
  | .status => 0x004
  | .idx => 0x008
  | .idx2 => 0x00C
  | .color => 0x010
  | .xy => 0x014
  | .result => 0x018
  | .cfg => 0x01C
  | .geom => 0x020
  | .npix => 0x024
  | .clkdiv => 0x028
  | .settle => 0x02C

/-- The register at a word offset `k`, that is, at block offset `4*k` (10_state.md R20). -/
def regAtWord : Nat → Option RegName
  | 0 => some .cmd
  | 1 => some .status
  | 2 => some .idx
  | 3 => some .idx2
  | 4 => some .color
  | 5 => some .xy
  | 6 => some .result
  | 7 => some .cfg
  | 8 => some .geom
  | 9 => some .npix
  | 10 => some .clkdiv
  | 11 => some .settle
  | _ => none

/-- First offset of the foreground window (20_memory.md R46). -/
def fgBase : Word := 0x01000000

/-- First offset of the background window (20_memory.md R46). -/
def bgBase : Word := 0x02000000

/-- The block offset a place names (30_encoding.md R70); a cell's offset is computed modulo 2^32. -/
def Place.offsetIn (r : HostRegs) : Place → Word
  | .reg n => n.offset
  | .fg i => fgBase + 4 * i.eval r
  | .bg i => bgBase + 4 * i.eval r
  | .offset a => a.eval r

end Sys2Proof.Machine
end

