-- ==== Sys2Proof/Machine/Ops.lean ====
section
/-! DEFINITION. The shared operations: the pixel buffers (10_state.md R35, R36), raising a condition (60_exceptions.md
R107), completing a command (30_encoding.md R67), the pixel write with its one check (40_buffer_grid.md
R86), translation (R81), reset (70_reset_and_hazards.md R124). -/

namespace Sys2Proof.Machine

/-- The colour of cell `i`; an unlisted cell is 0. -/
def Memory.read (i : Nat) : Memory → Color
  | [] => 0
  | (j, d) :: m => if i = j then d else Memory.read i m

/-- Cell `i` listed before `m`, unless its colour is 0. -/
def Memory.cons (i : Nat) (c : Color) (m : Memory) : Memory := if c = 0 then m else (i, c) :: m

/-- Give cell `i` the colour `c`, keeping the canonical form. -/
def Memory.write (i : Nat) (c : Color) : Memory → Memory
  | [] => Memory.cons i c []
  | (j, d) :: m =>
    if i < j then Memory.cons i c ((j, d) :: m)
    else if i = j then Memory.cons i c m
    else (j, d) :: Memory.write i c m

/-- Give the `k` cells from `i` on the colour `c`. -/
def Memory.fill (i : Nat) (c : Color) : Nat → Memory → Memory
  | 0, m => m
  | k + 1, m => Memory.fill (i + 1) c k (Memory.write i c m)

/-- The canonical form: indexes strictly rising, and no listed cell is 0. -/
def Memory.wf : Memory → Bool
  | [] => true
  | [(_, c)] => decide (c ≠ 0)
  | (i, c) :: (j, d) :: m => decide (c ≠ 0) && decide (i < j) && Memory.wf ((j, d) :: m)

/-- Every listed cell has an index below `n`. -/
def Memory.below (n : Nat) (m : Memory) : Bool := m.all fun p => decide (p.1 < n)

/-- `raise F` (00_scope.md R16, 60_exceptions.md R107): set the sticky flag; nothing is saved, no mode
changes, no vector is taken. This is all that "taking an exception" is on this block. -/
def State.raise (f : StickyFlag) (s : State) : State := { s with status := s.status.set f }

/-- A STATUS write (10_state.md R24), the only way but reset to take a condition back
(60_exceptions.md R115): there is no return operation. -/
def State.clearFlags (v : Word) (s : State) : State := { s with status := s.status.clearBy v }

/-- The completion of a command: `x[STATUS].BUSY <- 0` (30_encoding.md R67). -/
def State.complete (s : State) : State := { s with status := { s.status with busy := false } }

/-- A pixel buffer of the state. -/
def State.buffer (s : State) : Buffer → Memory
  | .fg => s.fg
  | .bg => s.bg

/-- The state with a pixel buffer replaced. -/
def State.setBuffer (b : Buffer) (m : Memory) (s : State) : State :=
  match b with
  | .fg => { s with fg := m }
  | .bg => { s with bg := m }

/-- `WritePixel(buf, i, c)`, the single validation point (40_buffer_grid.md R86): the guard is `i < N`. -/
def State.writePixel (b : Buffer) (i : Nat) (c : Color) (s : State) : State :=
  if i < s.cfg.n then s.setBuffer b (Memory.write i c (s.buffer b)) else s.raise .drop

/-- `for i in 0 .. N-1: buf[i] <- 0` (40_buffer_grid.md R91, R92). -/
def State.clearBuffer (b : Buffer) (s : State) : State :=
  s.setBuffer b (Memory.fill 0 0 s.cfg.n (s.buffer b))

/-- The clamp of 40_buffer_grid.md R82: a coordinate outside `[0, limit)` is replaced by 0 when
`P_CLAMP = 1`. -/
def clampCoord (clamp : Bool) (limit : Nat) (v : Coord) : Coord :=
  if clamp && decide (limit ≤ v.toNat) then 0 else v

/-- The serpentine formula of 40_buffer_grid.md R81 on 32-bit values, modulo 2^32. -/
def serpentine (h x y : Word) : Word :=
  if x.getLsbD 0 then (x + 1) * h - 1 - y else x * h + y

/-- `translate(x, y)` (40_buffer_grid.md R81, R82). -/
def translateXY (c : Config) (x y : Coord) : Word :=
  serpentine (BitVec.ofNat 32 c.height)
    ((clampCoord c.clamp c.width x).setWidth 32) ((clampCoord c.clamp c.height y).setWidth 32)

/-- Cells `start .. stop` of FG, both inclusive, get the colour `c` where they exist, and DROP is raised,
once, when a cell of the range does not (40_buffer_grid.md R93, "Equivalently"; 60_exceptions.md R113). -/
def State.writeRange (start stop : Nat) (c : Color) (s : State) : State :=
  let filled := s.setBuffer .fg (Memory.fill start c (min (stop + 1) s.cfg.n - start) s.fg)
  if s.cfg.n ≤ stop then filled.raise .drop else filled

/-- Reset of the block (70_reset_and_hazards.md R124). The configuration is not state (R125), and the Host
and the turns to come are outside the block. -/
def State.resetBlock (s : State) : State :=
  { s with
    fg := [], bg := [], idx := 0, idx2 := 0, color := 0, xy := 0, result := 0,
    status := .atReset, latch := .atReset, seq := none, lines := .atReset,
    trace := s.trace ++ [.reset] }

end Sys2Proof.Machine
end

