-- ==== Sys2Proof/Machine/BufferGrid.lean ====
section
/-! DEFINITION. The buffer and grid commands (40_buffer_grid.md R87 to R93): each is the whole of the Engine step that
performs it, and clears BUSY. -/

namespace Sys2Proof.Machine

open Host (Outcome)

/-- NOP (40_buffer_grid.md R87). -/
def execNop (s : State) : Outcome State Fault Refusal := .next s.complete

/-- SETPIX (40_buffer_grid.md R88). -/
def execSetpix (s : State) : Outcome State Fault Refusal :=
  .next (s.writePixel .fg s.latch.idx.toNat s.latch.color).complete

/-- SETPIXXY (40_buffer_grid.md R89); RESULT is not written. -/
def execSetpixxy (s : State) : Outcome State Fault Refusal :=
  .next (s.writePixel .fg (translateXY s.cfg s.latch.x s.latch.y).toNat s.latch.color).complete

/-- TRANSLATE (40_buffer_grid.md R90): an out-of-range index is returned as it is. -/
def execTranslate (s : State) : Outcome State Fault Refusal :=
  .next { s with result := translateXY s.cfg s.latch.x s.latch.y }.complete

/-- CLEAR (40_buffer_grid.md R91; 90_conflicts.md C8): BG is not touched. -/
def execClear (s : State) : Outcome State Fault Refusal := .next (s.clearBuffer .fg).complete

/-- CLEARBG (40_buffer_grid.md R92): FG is not touched. Acceptance lets it in only when `P_HAS_BG = 1`. -/
def execClearbg (s : State) : Outcome State Fault Refusal := .next (s.clearBuffer .bg).complete

/-- SETRANGE (40_buffer_grid.md R93; 90_conflicts.md C3): reversed bounds write no cell and raise nothing. -/
def execSetrange (s : State) : Outcome State Fault Refusal :=
  if s.latch.idx.toNat ≤ s.latch.idx2.toNat then
    .next (s.writeRange s.latch.idx.toNat s.latch.idx2.toNat s.latch.color).complete
  else .next s.complete

end Sys2Proof.Machine
end

