-- ==== Sys2Proof/Machine/Wire.lean ====
section
/-! DEFINITION. The wire: what a frame carries (45_transmit.md R95, R96), the wire events and the lines after each
(R97), the frame's event list (R98), and the pin-level meaning and timing of the events (R101 to R106),
which no step of the machine depends on. -/

namespace Sys2Proof.Machine

/-- `TxValue(i)` (45_transmit.md R95): the background shows where the foreground cell is exactly 0. -/
def txValue (c : Config) (fg bg : Memory) (i : Nat) : Color :=
  if c.hasBg && Memory.read i fg == 0 then Memory.read i bg else Memory.read i fg

/-- The 24 bits of a colour, `v[23]` first (45_transmit.md R96). -/
def colorBits (v : Color) : List Bool := (List.range 24).map fun k => v.getLsbD (23 - k)

/-- The `24*N` data bits of a frame (45_transmit.md R96). -/
def frameBits (c : Config) (fg bg : Memory) : List Bool :=
  (List.range c.n).flatMap fun i => colorBits (txValue c fg bg i)

/-- `FrameEvents` (45_transmit.md R98). -/
def frameEvents (c : Config) (fg bg : Memory) : List WireEvent :=
  let bits := (frameBits c fg bg).map WireEvent.bit
  match c.mode, c.frame with
  | .manual, _ => [.settle] ++ bits ++ [.settle]
  | .periph, true => [.frmLow] ++ bits ++ [.frmHigh]
  | .periph, false => bits

/-- The lines after an event, from the lines before it (45_transmit.md R97): a line the table does not name
keeps its level. -/
def linesAfter (c : Config) (l : Lines) : WireEvent → Lines
  | .bit b => { l with clk := c.mode = .manual, dat := b }
  | .settle => { l with clk := false }
  | .frmLow => { l with frm := false }
  | .frmHigh => { l with frm := true }
  | .reset => .atReset

/-- `Emit(e)` (45_transmit.md R97). -/
def State.emit (e : WireEvent) (s : State) : State :=
  { s with trace := s.trace ++ [e], lines := linesAfter s.cfg s.lines e }

/-- One action on the pins: drive a line to a level, or hold the levels for a number of Engine clock cycles. -/
inductive PinAction where
  | clk (level : Bool)
  | dat (level : Bool)
  | frm (level : Bool)
  | hold (cycles : Nat)
  deriving DecidableEq, Repr

/-- The pin-level meaning of an event (45_transmit.md R101 to R104, R106). `lead` and `trail` are the cycles
between `FrmLow` and the first clock period and between the last and `FrmHigh`, at least 0 and otherwise
unspecified (R106). DESIGN CHOICE (notes/assumptions/17.md): DAT is driven at the start of the low phase, the
whole `P_CLKDIV` wait after it; the spec gives only the order of the drives. -/
def pinActions (c : Config) (lead trail : Nat) : WireEvent → List PinAction
  | .bit b =>
    match c.mode with
    | .manual => [.clk false, .dat b, .hold c.clkdiv, .clk true, .hold c.clkdiv]
    | .periph => [.dat b, .hold c.clkdiv, .clk true, .hold c.clkdiv, .clk false]
  | .settle => [.clk false, .hold c.settle]
  | .frmLow => [.frm false, .hold lead]
  | .frmHigh => [.hold trail, .frm true]
  | .reset => [.clk false, .dat false, .frm true]

/-- The idle cycles before data bit `k` of a frame: `P_BYTEGAP` between two bytes in PERIPH mode
(45_transmit.md R103, R106). -/
def byteGapBefore (c : Config) (k : Nat) : List PinAction :=
  if c.mode = .periph ∧ k ≠ 0 ∧ k % 8 = 0 then [.hold c.byteGap] else []

/-- The pin actions of a list of events of one frame, `k` data bits into it. -/
def waveform (c : Config) (lead trail : Nat) : Nat → List WireEvent → List PinAction
  | _, [] => []
  | k, .bit b :: es =>
    byteGapBefore c k ++ pinActions c lead trail (.bit b) ++ waveform c lead trail (k + 1) es
  | k, e :: es => pinActions c lead trail e ++ waveform c lead trail k es

/-- The lines after a pin action. -/
def drive (l : Lines) : PinAction → Lines
  | .clk b => { l with clk := b }
  | .dat b => { l with dat := b }
  | .frm b => { l with frm := b }
  | .hold _ => l

/-- What the LED string samples: DAT at each rising edge of CLK (00_scope.md R3, 45_transmit.md R105). -/
def sampled (l : Lines) : List PinAction → List Bool
  | [] => []
  | p :: ps =>
    if l.clk = false ∧ (drive l p).clk = true then (drive l p).dat :: sampled (drive l p) ps
    else sampled (drive l p) ps

/-- No action drives DAT while CLK is high (45_transmit.md R101, R103). -/
def datSteady (l : Lines) : List PinAction → Bool
  | [] => true
  | .dat b :: ps => !l.clk && datSteady (drive l (.dat b)) ps
  | p :: ps => datSteady (drive l p) ps

/-- The Engine clock cycles a list of pin actions takes (45_transmit.md R106). -/
def cycles : List PinAction → Nat
  | [] => 0
  | .hold n :: ps => n + cycles ps
  | _ :: ps => cycles ps

end Sys2Proof.Machine
end

