-- ==== Sys2Proof/Machine/Transmit.lean ====
section
/-! DEFINITION. TRANSMIT (45_transmit.md R99): one wire event per Engine step. -/

namespace Sys2Proof.Machine

open Host (Outcome)

/-- The events a TRANSMIT still has to emit: those of the sequencer, or, before its first step, the frame of
FG and BG as they stand now (45_transmit.md R99; 92_eei_decisions.md D39). -/
def State.pendingEvents (s : State) : List WireEvent :=
  match s.seq with
  | some es => es
  | none => frameEvents s.cfg s.fg s.bg

/-- Emit `e` with `es` still to come; the last event also clears BUSY (45_transmit.md R99;
92_eei_decisions.md D42). -/
def State.emitThen (e : WireEvent) (es : List WireEvent) (s : State) : State :=
  match es with
  | [] => { s.emit e with seq := none }.complete
  | _ :: _ => { s.emit e with seq := some es }

/-- TRANSMIT (45_transmit.md R99). An empty list of pending events, whose `head` R99 would take, occurs in
no reachable state and stops by name (notes/assumptions/8.md). -/
def execTransmit (s : State) : Outcome State Fault Refusal :=
  match s.pendingEvents with
  | [] => .fault .sequencerEmpty
  | e :: es => .next (s.emitThen e es)

end Sys2Proof.Machine
end

