-- ==== Sys2Proof/Machine/Dispatch.lean ====
section
/-! DEFINITION. One arm per command (30_encoding.md R67): the Engine step of the command. -/

namespace Sys2Proof.Machine

def exec (i : Instr) (s : State) : Host.Outcome State Fault Refusal :=
  match i with
  | .nop => Sys2Proof.Machine.execNop s
  | .setpix => Sys2Proof.Machine.execSetpix s
  | .setpixxy => Sys2Proof.Machine.execSetpixxy s
  | .translate => Sys2Proof.Machine.execTranslate s
  | .clear => Sys2Proof.Machine.execClear s
  | .clearbg => Sys2Proof.Machine.execClearbg s
  | .setrange => Sys2Proof.Machine.execSetrange s
  | .transmit => Sys2Proof.Machine.execTransmit s

end Sys2Proof.Machine
end

