-- ==== Sys2Proof/Machine/Bus.lean ====
section
/-! DEFINITION. The host bus: command acceptance (30_encoding.md R66), register accesses (10_state.md R20 to R34,
20_memory.md R47), pixel windows (20_memory.md R49 to R51), and the whole access with the order of its
checks (20_memory.md R43). -/

namespace Sys2Proof.Machine

/-- The kind of a bus transaction (20_memory.md R43). -/
inductive AccessKind where
  | read | write
  deriving DecidableEq, Repr

/-- A bus transaction `(kind, a, n, v)` (20_memory.md R43); `data` counts for writes only. -/
structure Access where
  kind : AccessKind
  addr : Word
  size : Nat
  data : Word
  deriving DecidableEq, Repr

/-- Accept the command word `v` (30_encoding.md R66, the accepting case): the latch takes the operands, the
sequencer is not started, BUSY is set. -/
def State.accept (v : Word) (s : State) : State :=
  { s with latch := latchOf v s, seq := none, status := { s.status with busy := true } }

/-- `CmdWrite(v)` (30_encoding.md R66). -/
def State.cmdWrite (v : Word) (s : State) : State :=
  if s.status.busy then s.raise .ovf
  else match legalInstr s.cfg v with
    | none => s.raise .ill
    | some _ => s.accept v

/-- CFG (10_state.md R30). -/
def cfgWord (c : Config) : Word :=
  0#28 ++ BitVec.ofBool c.frame ++ BitVec.ofBool c.clamp ++ BitVec.ofBool c.hasBg
    ++ BitVec.ofBool (decide (c.mode = .manual))

/-- GEOM (10_state.md R31). -/
def geomWord (c : Config) : Word := BitVec.ofNat 16 c.height ++ BitVec.ofNat 16 c.width

/-- The value a read of a register returns (10_state.md R21 to R34). -/
def State.regRead (s : State) : RegName → Word
  | .cmd => 0
  | .status => s.status.toWord
  | .idx => s.idx
  | .idx2 => s.idx2
  | .color => colorWord s.color
  | .xy => s.xy
  | .result => s.result
  | .cfg => cfgWord s.cfg
  | .geom => geomWord s.cfg
  | .npix => BitVec.ofNat 32 s.cfg.n
  | .clkdiv => 0#16 ++ BitVec.ofNat 16 s.cfg.clkdiv
  | .settle => BitVec.ofNat 32 s.cfg.settle

/-- A write of `v` to a register (10_state.md R21 to R34, 20_memory.md R47): a read-only register keeps its
value and no flag is set. -/
def State.regWrite (v : Word) (s : State) : RegName → State
  | .cmd => s.cmdWrite v
  | .status => s.clearFlags v
  | .idx => { s with idx := v }
  | .idx2 => { s with idx2 := v }
  | .color => { s with color := wordColor v }
  | .xy => { s with xy := v }
  | .result => s
  | .cfg => s
  | .geom => s
  | .npix => s
  | .clkdiv => s
  | .settle => s

/-- `RegAccess(kind, a, v)` (20_memory.md R47): the state after, and the word returned. -/
def State.regAccess (r : RegName) (k : AccessKind) (v : Word) (s : State) : State × Word :=
  match k with
  | .read => (s, s.regRead r)
  | .write => (s.regWrite v r, 0)

/-- `WinAccess(buf, kind, i, v)` (20_memory.md R49, R50, R51). -/
def State.winAccess (b : Buffer) (k : AccessKind) (i : Nat) (v : Word) (s : State) : State × Word :=
  if s.status.busy then (s.raise .coll, 0)
  else match k with
    | .read => (s, if i < s.cfg.n then colorWord (Memory.read i (s.buffer b)) else 0)
    | .write => (s.writePixel b i (wordColor v), 0)

/-- `HostAccess(kind, a, n, v)` (20_memory.md R43), with its checks in the spec's order; a write returns 0
to nobody. -/
def State.access (t : Access) (s : State) : State × Word :=
  if t.size ≠ 4 ∨ t.addr.extractLsb' 0 2 ≠ 0 then (s.raise .buserr, 0)
  else match regAtWord (t.addr.toNat / 4) with
    | some r => s.regAccess r t.kind t.data
    | none =>
      if 0x01000000 ≤ t.addr.toNat ∧ t.addr.toNat ≤ 0x01FFFFFC then
        s.winAccess .fg t.kind ((t.addr.toNat - 0x01000000) / 4) t.data
      else if s.cfg.hasBg ∧ 0x02000000 ≤ t.addr.toNat ∧ t.addr.toNat ≤ 0x02FFFFFC then
        s.winAccess .bg t.kind ((t.addr.toNat - 0x02000000) / 4) t.data
      else (s.raise .buserr, 0)

end Sys2Proof.Machine
end

