-- ==== Sys2Proof/Machine/HostAgent.lean ====
section
/-! DEFINITION. The Host's step (00_scope.md R18; 30_encoding.md R70, R71): one operation of its program. -/

namespace Sys2Proof.Machine

/-- The Host with a register given a value and its next operation at `pc`. -/
def HostState.put (h : HReg) (v : Word) (pc : Nat) (x : HostState) : HostState :=
  { x with regs := x.regs.set h v, pc := pc }

/-- The Host with its next operation at `pc`. -/
def HostState.goto (pc : Nat) (x : HostState) : HostState := { x with pc := pc }

/-- The meaning of one host operation at `pc`: only `W` and `R` touch the block (30_encoding.md R70, R71).
Operands are read before the register is written. -/
def State.hostOp (o : HostOp Nat) (s : State) : State :=
  let r := s.host.regs
  let next := s.host.pc + 1
  match o with
  | .write p n e =>
    let out := s.access { kind := .write, addr := p.offsetIn r, size := n, data := e.eval r }
    { out.1 with host := s.host.goto next }
  | .read h p n =>
    let out := s.access { kind := .read, addr := p.offsetIn r, size := n, data := 0 }
    { out.1 with host := s.host.put h out.2 next }
  | .mov h e => { s with host := s.host.put h (e.eval r) next }
  | .add h a e => { s with host := s.host.put h (a.eval r + e.eval r) next }
  | .sub h a e => { s with host := s.host.put h (a.eval r - e.eval r) next }
  | .and h a e => { s with host := s.host.put h (a.eval r &&& e.eval r) next }
  | .bnz h t => { s with host := s.host.goto (if r.get h ≠ 0 then t else next) }
  | .bltu a b t => { s with host := s.host.goto (if (a.eval r).toNat < (b.eval r).toNat then t else next) }
  | .jump t => { s with host := s.host.goto t }
  | .halt => s

/-- The Host's step: its next operation, or nothing when the program has ended (notes/assumptions/3.md). -/
def State.hostStep (s : State) : State :=
  match s.host.prog[s.host.pc]? with
  | some o => s.hostOp o
  | none => s

/-- A program loaded into the Host, at its start: host registers all 0 (30_encoding.md R71). -/
def State.loadProgram (p : HostProg) (s : State) : State :=
  { s with host := { regs := .zero, prog := p, pc := 0 } }

end Sys2Proof.Machine
end

