-- ==== Sys2Proof/Machine/Engine.lean ====
section
/-! DEFINITION. The Engine's step (30_encoding.md R67), and whose turn it is (00_scope.md R18). -/

namespace Sys2Proof.Machine

open Host (Outcome)

/-- The command the Engine holds, read back from the latch (30_encoding.md R67). -/
def State.heldInstr (s : State) : Option Instr := legalInstr s.cfg s.latch.word

/-- The Engine's step (30_encoding.md R67): none when BUSY = 0, else the step of the held command. -/
def engineStep (s : State) : Outcome State Fault Refusal :=
  if s.status.busy then
    match s.heldInstr with
    | some i => exec i s
    | none => .fault .heldCommandIllegal
  else .next s

/-- `k` Engine steps with no other agent between them. -/
def engineRun : Nat → State → Outcome State Fault Refusal
  | 0, s => .next s
  | k + 1, s =>
    match engineStep s with
    | .next t => engineRun k t
    | .fault r => .fault r
    | .refused r => .refused r

/-- Whose turn it is, and the state with that turn taken off the list; with none listed, the Engine moves
while BUSY = 1 and else the Host (notes/assumptions/3.md). -/
def State.takeTurn (s : State) : Turn × State :=
  match s.turns with
  | t :: ts => (t, { s with turns := ts })
  | [] => (if s.status.busy then .engine else .host, s)

/-- One turn (00_scope.md R18; 70_reset_and_hazards.md R124). -/
def turnStep (t : Turn) (s : State) : Outcome State Fault Refusal :=
  match t with
  | .host => .next s.hostStep
  | .engine => engineStep s
  | .reset => .next s.resetBlock

/-- The command word `v` presented to the idle Engine, with the Engine's turn next
(notes/assumptions/5.md). A command in flight gives way to it. -/
def State.presentWord (v : Word) (s : State) : State :=
  let t := { s.complete with seq := none }.cmdWrite v
  match t.turns with
  | [] => t
  | ts => { t with turns := .engine :: ts }

end Sys2Proof.Machine
end

