-- ==== Sys2Proof/Machine/Step.lean ====
section
/-! DEFINITION. The step of the machine: one turn of one agent (00_scope.md R18). -/

namespace Sys2Proof.Machine

/-- One step: the agent whose turn it is moves. A configuration out of range is refused
(00_scope.md R19, 93_implementation_defined.md I23). -/
def step (s : State) : Host.Outcome State Fault Refusal :=
  if s.cfg.wellFormed then turnStep s.takeTurn.1 s.takeTurn.2 else .refused .configOutOfRange

/-- `s` with the command word `w` accepted, so that the next step is the Engine's and runs it
(notes/assumptions/5.md). Every command is one 32-bit word, so `nbits` is 32, and bits from
there up count for nothing. -/
def State.withFetchWord (s : State) (nbits w : Nat) : State :=
  s.presentWord (BitVec.ofNat 32 (w % 2 ^ nbits))

end Sys2Proof.Machine
end

