-- ==== Sys2Proof/Safety.lean ====
section
/-! DEFINITION. What a safe state is: the invariant of the machine, and the words in which claims speak of what a step
leaves alone. -/

namespace Sys2Proof.Machine

/-- The frame a TRANSMIT in flight is sending (10_state.md R38, 45_transmit.md R99): `sent` is on the wire,
at the end of the trace, `rest` is in the sequencer, and together they are the frame of the buffers as they
stand; the lines are where `sent` left them, starting from idle lines (10_state.md R39). -/
structure State.InFlight (s : State) (rest : List WireEvent) : Prop where
  busy : s.status.busy = true
  held : s.heldInstr = some .transmit
  rest_ne : rest ≠ []
  sent : ∃ sent before, sent ≠ [] ∧ frameEvents s.cfg s.fg s.bg = sent ++ rest ∧ s.trace = before ++ sent
    ∧ ∃ d, s.lines = sent.foldl (linesAfter s.cfg) { clk := false, dat := d, frm := true }

/-- The invariant every step keeps. -/
structure State.Inv (s : State) : Prop where
  /-- The configuration is in range (00_scope.md R8, R14). -/
  cfg : s.cfg.wellFormed = true
  /-- FG is in canonical form. -/
  fgWf : Memory.wf s.fg = true
  /-- BG is in canonical form. -/
  bgWf : Memory.wf s.bg = true
  /-- FG has cells `0 .. N-1` only (10_state.md R35). -/
  fgBelow : Memory.below s.cfg.n s.fg = true
  /-- BG has cells `0 .. N-1` only (10_state.md R36). -/
  bgBelow : Memory.below s.cfg.n s.bg = true
  /-- BG does not exist when `P_HAS_BG = 0` (10_state.md R36). -/
  bgAbsent : s.cfg.hasBg = false → s.bg = []
  /-- While BUSY = 1 the Engine holds a legal command (10_state.md R23, 30_encoding.md R66). -/
  held : s.status.busy = true → ∃ i, s.heldInstr = some i
  /-- A started TRANSMIT is a frame partly sent (10_state.md R38). -/
  inFlight : ∀ rest, s.seq = some rest → s.InFlight rest
  /-- Between frames CLK and FRM are at their idle levels (10_state.md R39). -/
  idleLines : s.seq = none → s.lines.clk = false ∧ s.lines.frm = true
  /-- FRM stays 1 unless frames drive it (10_state.md R39). -/
  frmIdle : s.cfg.framed = false → s.lines.frm = true

/-- Nothing differs but STATUS. -/
def State.SameButStatus (s t : State) : Prop := t = { s with status := t.status }

/-- Nothing differs but the foreground buffer and STATUS. -/
def State.SameButFgStatus (s t : State) : Prop := t = { s with fg := t.fg, status := t.status }

/-- Nothing differs but the background buffer and STATUS. -/
def State.SameButBgStatus (s t : State) : Prop := t = { s with bg := t.bg, status := t.status }

/-- Nothing differs but RESULT and STATUS. -/
def State.SameButResultStatus (s t : State) : Prop := t = { s with result := t.result, status := t.status }

/-- Nothing differs but STATUS, the sequencer, the lines and the trace. -/
def State.SameButWireStatus (s t : State) : Prop :=
  t = { s with status := t.status, seq := t.seq, lines := t.lines, trace := t.trace }

/-- At most one sticky flag is 1 in `t` that was 0 in `s` (60_exceptions.md R113). -/
def State.AtMostOneRaised (s t : State) : Prop :=
  ∃ f : StickyFlag, ∀ g, g ≠ f → t.status.flag g = true → s.status.flag g = true

/-- The spec's loop of SETRANGE (40_buffer_grid.md R93): `k` pixel writes from index `i` on. -/
def pixelLoop (c : Color) : Nat → Nat → State → State
  | 0, _, s => s
  | k + 1, i, s => pixelLoop c k (i + 1) (s.writePixel .fg i c)

end Sys2Proof.Machine
end

