-- ==== Sys2Proof/Certificates/Slice0/Obligations.lean ====
section
/-! DEFINITION. The statements for the provers. Each docstring says which rule of the spec it formalises; bus
accesses are written `s.access ⟨kind, offset, size, data⟩`, which answers the state after and the word read. -/

open Sys2Proof Sys2Proof.Machine

/-! ## Encoding (30_encoding.md) -/

/-- A word decodes to a command exactly when it is that command's word of the opcode map
(30_encoding.md R65, R68): encoding and decoding agree in both directions. -/
def Obligations.DecodeAcceptsExactlyTheEncodedWords : Prop :=
  ∀ (v : Word) (i : Instr), decode v = .ok i ↔ v = encode i

/-- The eight words of 30_encoding.md R65, written out, decode to their commands. -/
def Obligations.OpcodeTableWordsDecode : Prop :=
  decode 0b00000000000000000000000000000000 = .ok .nop ∧
  decode 0b00000000000000000000000000000001 = .ok .setpix ∧
  decode 0b00000000000000000000000100000001 = .ok .setpixxy ∧
  decode 0b00000000000000000000000000000010 = .ok .translate ∧
  decode 0b00000000000000000000000000000011 = .ok .clear ∧
  decode 0b00000000000000000000000000000100 = .ok .clearbg ∧
  decode 0b00000000000000000000000000000101 = .ok .setrange ∧
  decode 0b00000000000000000000000000000110 = .ok .transmit

/-- Command acceptance, 30_encoding.md R66: a CMD write does exactly what `CmdWrite(v)` says. -/
def Obligations.CmdWriteFollowsAcceptancePseudocode : Prop :=
  ∀ (s : State) (v : Word), (s.access ⟨.write, 0x000, 4, v⟩).1 =
    if s.status.busy = true then { s with status := { s.status with ovf := true } }
    else if v.extractLsb' 9 23 ≠ 0 ∨ 7 ≤ (v.extractLsb' 0 8).toNat
        ∨ (v.getLsbD 8 = true ∧ (v.extractLsb' 0 8).toNat ≠ 1)
        ∨ ((v.extractLsb' 0 8).toNat = 4 ∧ s.cfg.hasBg = false)
      then { s with status := { s.status with ill := true } }
    else { s with
      latch := { op := v.extractLsb' 0 8, a := v.getLsbD 8, idx := s.idx, idx2 := s.idx2, color := s.color,
                 x := s.xy.extractLsb' 0 16, y := s.xy.extractLsb' 16 16 }
      seq := none
      status := { s.status with busy := true } }

/-- 30_encoding.md R68: a word that is none of the eight, written while BUSY = 0, sets ILL and changes
nothing else; while BUSY = 1 it sets OVF instead. -/
def Obligations.IllegalWordSetsOnlyIll : Prop :=
  ∀ (s : State) (v : Word),
    v ∉ [0x00000000#32, 0x00000001#32, 0x00000101#32, 0x00000002#32, 0x00000003#32, 0x00000004#32,
         0x00000005#32, 0x00000006#32] →
    (s.access ⟨.write, 0x000, 4, v⟩).1 =
      if s.status.busy = true then { s with status := { s.status with ovf := true } }
      else { s with status := { s.status with ill := true } }

/-- 30_encoding.md R69: CLEARBG is legal exactly when `P_HAS_BG = 1`, and illegal words aside no other
word's legality depends on the configuration. -/
def Obligations.OnlyClearbgLegalityDependsOnConfiguration : Prop :=
  (∀ c : Config, (legalInstr c 0x00000004 = some .clearbg ↔ c.hasBg = true) ∧
    (legalInstr c 0x00000004 = none ↔ c.hasBg = false)) ∧
  (∀ (c d : Config) (v : Word), v ≠ 0x00000004 → legalInstr c v = legalInstr d v)

/-! ## The host bus (20_memory.md) and the register file (10_state.md) -/

/-- 10_state.md R20, 30_encoding.md R70: the offsets of the twelve registers, at which a word access reads
the register, and of the window cells. The model's choice, notes/assumptions/12.md: a cell's offset wraps
modulo 2^32, and a place may be a plain offset, which names itself. -/
def Obligations.RegistersAndCellsStandAtTheirOffsets : Prop :=
  ([.cmd, .status, .idx, .idx2, .color, .xy, .result, .cfg, .geom, .npix, .clkdiv, .settle].map
      RegName.offset =
    [0x000#32, 0x004#32, 0x008#32, 0x00C#32, 0x010#32, 0x014#32, 0x018#32, 0x01C#32, 0x020#32, 0x024#32,
     0x028#32, 0x02C#32]) ∧
  (∀ (s : State) (r : RegName) (v : Word), s.access ⟨.read, r.offset, 4, v⟩ = (s, s.regRead r)) ∧
  (∀ (g : HostRegs) (r : RegName), (Place.reg r).offsetIn g = r.offset) ∧
  (∀ (g : HostRegs) (e : HExpr),
    (Place.fg e).offsetIn g = 0x01000000 + 4 * e.eval g ∧
    (Place.bg e).offsetIn g = 0x02000000 + 4 * e.eval g ∧ (Place.offset e).offsetIn g = e.eval g)

/-- 20_memory.md R44: an access of another size than 4, or misaligned, sets BUSERR, returns 0 and
performs nothing. -/
def Obligations.MisalignedOrNonWordAccessOnlySetsBuserr : Prop :=
  ∀ (s : State) (k : AccessKind) (a : Word) (n : Nat) (v : Word), (n ≠ 4 ∨ a.extractLsb' 0 2 ≠ 0) →
    s.access ⟨k, a, n, v⟩ = ({ s with status := { s.status with buserr := true } }, 0)

/-- 20_memory.md R48: an aligned word access at an unmapped offset of R46 sets BUSERR, returns 0 and
performs nothing. -/
def Obligations.UnmappedAccessOnlySetsBuserr : Prop :=
  ∀ (s : State) (k : AccessKind) (a v : Word), a.extractLsb' 0 2 = 0 →
    ((0x30 ≤ a.toNat ∧ a.toNat < 0x01000000)
      ∨ (s.cfg.hasBg = false ∧ 0x02000000 ≤ a.toNat ∧ a.toNat < 0x03000000)
      ∨ 0x03000000 ≤ a.toNat) →
    s.access ⟨k, a, 4, v⟩ = ({ s with status := { s.status with buserr := true } }, 0)

/-- 10_state.md R22, R24: STATUS reads its six fields at their bits with 31:6 zero and no side effect, and
a write clears exactly the sticky flags whose bit is 1, whatever BUSY is. -/
def Obligations.StatusReadsFieldsAndClearsWrittenOnes : Prop :=
  ∀ (s : State) (v : Word),
    ((s.access ⟨.read, 0x004, 4, v⟩).1 = s ∧
      (∀ k, (s.access ⟨.read, 0x004, 4, v⟩).2.getLsbD k =
        if k = 0 then s.status.busy else if k = 1 then s.status.drop else if k = 2 then s.status.ovf
        else if k = 3 then s.status.ill else if k = 4 then s.status.coll
        else if k = 5 then s.status.buserr else false)) ∧
    s.SameButStatus (s.access ⟨.write, 0x004, 4, v⟩).1 ∧
    (s.access ⟨.write, 0x004, 4, v⟩).1.status.busy = s.status.busy ∧
    (∀ f : StickyFlag, (s.access ⟨.write, 0x004, 4, v⟩).1.status.flag f =
      (s.status.flag f && !v.getLsbD f.code))

/-- 10_state.md R24, "The sticky flags change no behaviour of the block: they only record": two states that
differ in sticky flags alone still differ in sticky flags alone after the same access, which returns the
same word unless it reads STATUS, and after the same Engine step of the same command. -/
def Obligations.StickyFlagsChangeNoBehaviour : Prop :=
  ∀ (s : State) (st : Status), st.busy = s.status.busy →
    (∀ t : Access, ∃ st', st'.busy = (s.access t).1.status.busy ∧
      (({ s with status := st } : State).access t).1 = { (s.access t).1 with status := st' } ∧
      (t.addr ≠ 0x004 → (({ s with status := st } : State).access t).2 = (s.access t).2)) ∧
    (∀ (i : Instr) (t : State), exec i s = .next t → ∃ st', st'.busy = t.status.busy ∧
      exec i { s with status := st } = .next { t with status := st' })

/-- 10_state.md R21, R25 to R29: IDX, IDX2 and XY keep all 32 bits of a write and COLOR keeps bits 23:0; each
reads back what it holds, and the write changes nothing else, whatever BUSY is. CMD reads 0; RESULT reads
what it holds and ignores writes. -/
def Obligations.OperandRegistersKeepWhatIsWritten : Prop :=
  ∀ (s : State) (v w : Word),
    (s.access ⟨.write, 0x008, 4, v⟩).1 = { s with idx := v } ∧
    (s.access ⟨.write, 0x00C, 4, v⟩).1 = { s with idx2 := v } ∧
    (s.access ⟨.write, 0x010, 4, v⟩).1 = { s with color := v.extractLsb' 0 24 } ∧
    (s.access ⟨.write, 0x014, 4, v⟩).1 = { s with xy := v } ∧
    s.access ⟨.read, 0x008, 4, w⟩ = (s, s.idx) ∧
    s.access ⟨.read, 0x00C, 4, w⟩ = (s, s.idx2) ∧
    s.access ⟨.read, 0x010, 4, w⟩ = (s, s.color.setWidth 32) ∧
    s.access ⟨.read, 0x014, 4, w⟩ = (s, s.xy) ∧
    s.access ⟨.read, 0x000, 4, w⟩ = (s, 0) ∧
    s.access ⟨.read, 0x018, 4, w⟩ = (s, s.result) ∧
    (s.access ⟨.write, 0x018, 4, v⟩).1 = s

/-- 10_state.md R30 to R34: the construction registers read the parameters and ignore writes. -/
def Obligations.ConstructionRegistersReadParameters : Prop :=
  ∀ (s : State) (v : Word), s.cfg.wellFormed = true →
    (∀ a, a ∈ [0x01C#32, 0x020#32, 0x024#32, 0x028#32, 0x02C#32] →
      (s.access ⟨.read, a, 4, v⟩).1 = s ∧ (s.access ⟨.write, a, 4, v⟩).1 = s) ∧
    (∀ k, (s.access ⟨.read, 0x01C, 4, v⟩).2.getLsbD k =
      if k = 0 then decide (s.cfg.mode = .manual) else if k = 1 then s.cfg.hasBg
      else if k = 2 then s.cfg.clamp else if k = 3 then s.cfg.frame else false) ∧
    ((s.access ⟨.read, 0x020, 4, v⟩).2.extractLsb' 0 16).toNat = s.cfg.width ∧
    ((s.access ⟨.read, 0x020, 4, v⟩).2.extractLsb' 16 16).toNat = s.cfg.height ∧
    (s.access ⟨.read, 0x024, 4, v⟩).2.toNat = s.cfg.width * s.cfg.height ∧
    (s.access ⟨.read, 0x028, 4, v⟩).2.toNat = s.cfg.clkdiv ∧
    (s.access ⟨.read, 0x02C, 4, v⟩).2.toNat = s.cfg.settle

/-- 20_memory.md R49, R50: a window access at word `i`. While BUSY = 1 it only sets COLL. While BUSY = 0 a
read returns the cell, or 0 from `N` on, and changes nothing; a write puts `v[23:0]` into the cell and into
no other, or from `N` on sets DROP alone. The background window has these accesses when `P_HAS_BG = 1`. -/
def Obligations.WindowAccessReadsAndWritesOneCell : Prop :=
  ∀ (s : State) (b : Buffer) (i : Nat) (v : Word),
    (b = .bg → s.cfg.hasBg = true) → i < 2 ^ 22 → Memory.wf (s.buffer b) = true →
    let a : Word := BitVec.ofNat 32 ((if b = .fg then 0x01000000 else 0x02000000) + 4 * i)
    if s.status.busy = true then
      ∀ k, s.access ⟨k, a, 4, v⟩ = ({ s with status := { s.status with coll := true } }, 0)
    else
      s.access ⟨.read, a, 4, v⟩ =
        (s, if i < s.cfg.n then (Memory.read i (s.buffer b)).setWidth 32 else 0) ∧
      (i < s.cfg.n → ∃ m, (s.access ⟨.write, a, 4, v⟩).1 = s.setBuffer b m ∧
        ∀ j, Memory.read j m = if j = i then v.extractLsb' 0 24 else Memory.read j (s.buffer b)) ∧
      (s.cfg.n ≤ i →
        (s.access ⟨.write, a, 4, v⟩).1 = { s with status := { s.status with drop := true } })

/-- 20_memory.md R51: while BUSY = 1 an aligned word access to either window performs nothing, returns 0
and sets COLL, at every index; so no access of any kind changes a cell while a command is in flight. -/
def Obligations.WindowsClosedWhileBusy : Prop :=
  ∀ s : State, s.status.busy = true →
    (∀ (k : AccessKind) (a v : Word), a.extractLsb' 0 2 = 0 →
      ((0x01000000 ≤ a.toNat ∧ a.toNat < 0x02000000)
        ∨ (s.cfg.hasBg = true ∧ 0x02000000 ≤ a.toNat ∧ a.toNat < 0x03000000)) →
      s.access ⟨k, a, 4, v⟩ = ({ s with status := { s.status with coll := true } }, 0)) ∧
    (∀ t : Access, (s.access t).1.fg = s.fg ∧ (s.access t).1.bg = s.bg)

/-- 20_memory.md R52: a read changes no state but the flag it may raise, BUSERR or COLL, and then it
returns 0. -/
def Obligations.ReadChangesNothingButARaisedFlag : Prop :=
  ∀ (s : State) (a : Word) (n : Nat) (v : Word),
    (s.access ⟨.read, a, n, v⟩).1 = s ∨
    s.access ⟨.read, a, n, v⟩ = ({ s with status := { s.status with buserr := true } }, 0) ∨
    s.access ⟨.read, a, n, v⟩ = ({ s with status := { s.status with coll := true } }, 0)

/-- 20_memory.md R53: writing IDX, IDX2, COLOR, XY, STATUS or a window cell twice is writing it once. -/
def Obligations.OperandStatusAndWindowWritesAreIdempotent : Prop :=
  ∀ (s : State) (a v : Word), Memory.wf s.fg = true → Memory.wf s.bg = true →
    (a ∈ [0x004#32, 0x008#32, 0x00C#32, 0x010#32, 0x014#32] ∨ 0x01000000 ≤ a.toNat) →
    ((s.access ⟨.write, a, 4, v⟩).1.access ⟨.write, a, 4, v⟩).1 = (s.access ⟨.write, a, 4, v⟩).1

/-- 60_exceptions.md R113: one access raises at most one condition, and one Engine step at most DROP. The
three examples of the order hold: BUSERR before OVF, OVF before ILL, COLL before DROP. -/
def Obligations.AtMostOneConditionPerStep : Prop :=
  ∀ s : State,
    (∀ t : Access, s.AtMostOneRaised (s.access t).1) ∧
    (∀ (i : Instr) (t : State), exec i s = .next t → ∀ f : StickyFlag, f ≠ .drop →
      t.status.flag f = s.status.flag f) ∧
    (s.status.busy = true → ∀ v : Word,
      (s.access ⟨.write, 0x002, 4, v⟩).1 = { s with status := { s.status with buserr := true } } ∧
      (s.access ⟨.write, 0x000, 4, 0x00000007⟩).1 = { s with status := { s.status with ovf := true } } ∧
      (∀ a : Word, a.extractLsb' 0 2 = 0 → 0x01000000 + 4 * s.cfg.n ≤ a.toNat → a.toNat < 0x02000000 →
        (s.access ⟨.write, a, 4, v⟩).1 = { s with status := { s.status with coll := true } }))

/-! ## Colour and translation (40_buffer_grid.md) -/

/-- 40_buffer_grid.md R80: `pack` puts red, green and blue into bits 23:16, 15:8 and 7:0 of a word whose other
bits are 0, unpacking gives them back, and every colour is the pack of its channels. -/
def Obligations.PackAndUnpackAreInverse : Prop :=
  (∀ r g b : Byte, (pack r g b).toNat = r.toNat * 65536 + g.toNat * 256 + b.toNat ∧
    ((colorWord (pack r g b)).toNat = (pack r g b).toNat) ∧
    red (pack r g b) = r ∧ green (pack r g b) = g ∧ blue (pack r g b) = b) ∧
  (∀ c : Color, pack (red c) (green c) (blue c) = c)

/-- 40_buffer_grid.md R81 to R83: with the coordinates clamped where `P_CLAMP = 1`, translation is the
source's formula on exact integers, except where the odd column's subtraction goes below 0; there the
result is the formula's plus `2^32`, at least `2^32 - 65534`, and so `>= N`. -/
def Obligations.TranslateIsExactOrOutOfRange : Prop :=
  ∀ (c : Config) (x16 y16 : Coord), c.wellFormed = true →
    let x := if c.clamp = true ∧ c.width ≤ x16.toNat then 0 else x16.toNat
    let y := if c.clamp = true ∧ c.height ≤ y16.toNat then 0 else y16.toNat
    let r := (translateXY c x16 y16).toNat
    if x % 2 = 0 then r = x * c.height + y
    else if 1 + y ≤ (x + 1) * c.height then r = (x + 1) * c.height - 1 - y
    else r = 2 ^ 32 + (x + 1) * c.height - 1 - y ∧ 2 ^ 32 - 65534 ≤ r ∧ c.n ≤ r

/-- 40_buffer_grid.md R84: on the grid, translation stays in its column's run of indices, is one to one,
and reaches every index below N. -/
def Obligations.TranslateIsABijectionOfTheGrid : Prop :=
  ∀ c : Config, c.wellFormed = true →
    (∀ x y : Coord, x.toNat < c.width → y.toNat < c.height →
      x.toNat * c.height ≤ (translateXY c x y).toNat ∧
      (translateXY c x y).toNat ≤ x.toNat * c.height + c.height - 1 ∧ (translateXY c x y).toNat < c.n) ∧
    (∀ x y x' y' : Coord, x.toNat < c.width → y.toNat < c.height → x'.toNat < c.width →
      y'.toNat < c.height → translateXY c x y = translateXY c x' y' → x = x' ∧ y = y') ∧
    (∀ k, k < c.n → ∃ x y : Coord, x.toNat < c.width ∧ y.toNat < c.height ∧
      (translateXY c x y).toNat = k)

/-- 40_buffer_grid.md R82: with `P_CLAMP = 1` every result is below N. -/
def Obligations.ClampedTranslateIsAlwaysInRange : Prop :=
  ∀ (c : Config) (x y : Coord), c.wellFormed = true → c.clamp = true → (translateXY c x y).toNat < c.n

/-- 40_buffer_grid.md R85, for a strip without the clamp: `translate(x, 0) = x`, and in general the formula
gives `x + y` for even x and `x - y` modulo 2^32 for odd x. -/
def Obligations.StripTranslateIsDirectIndexing : Prop :=
  ∀ (c : Config) (x y : Coord), c.height = 1 → c.clamp = false →
    (translateXY c x 0).toNat = x.toNat ∧
    translateXY c x y =
      if x.toNat % 2 = 0 then x.setWidth 32 + y.setWidth 32 else x.setWidth 32 - y.setWidth 32

/-! ## The commands (40_buffer_grid.md, 45_transmit.md): each completes, does its effect and nothing else -/

/-- 40_buffer_grid.md R87: the word of NOP, its Engine step, and a NOP written while BUSY = 1. -/
def Obligations.NopOnlyClearsBusy : Prop :=
  decode 0x00000000 = .ok .nop ∧
  (∀ s : State, exec .nop s = .next { s with status := { s.status with busy := false } }) ∧
  (∀ s : State, s.status.busy = true →
    (s.access ⟨.write, 0x000, 4, 0x00000000⟩).1 = { s with status := { s.status with ovf := true } })

/-- 40_buffer_grid.md R88, R86: SETPIX writes its colour into cell `L.idx` alone when `L.idx < N`, and
otherwise leaves the buffer as it is and sets DROP; BUSY is cleared and nothing else changes. -/
def Obligations.SetpixWritesOneCellOrDrops : Prop :=
  ∀ s : State, Memory.wf s.fg = true → ∃ t, exec .setpix s = .next t ∧ s.SameButFgStatus t ∧
    t.status = { s.status with
      busy := false, drop := s.status.drop || decide (s.cfg.n ≤ s.latch.idx.toNat) } ∧
    (s.cfg.n ≤ s.latch.idx.toNat → t.fg = s.fg) ∧
    (∀ j, Memory.read j t.fg =
      if j = s.latch.idx.toNat ∧ s.latch.idx.toNat < s.cfg.n then s.latch.color else Memory.read j s.fg)

/-- 40_buffer_grid.md R89: SETPIXXY is SETPIX at the translated index; RESULT is not written. -/
def Obligations.SetpixxyWritesTheTranslatedCellOrDrops : Prop :=
  ∀ s : State, Memory.wf s.fg = true →
    let i := (translateXY s.cfg s.latch.x s.latch.y).toNat
    ∃ t, exec .setpixxy s = .next t ∧ s.SameButFgStatus t ∧
      t.status = { s.status with busy := false, drop := s.status.drop || decide (s.cfg.n ≤ i) } ∧
      (s.cfg.n ≤ i → t.fg = s.fg) ∧
      (∀ j, Memory.read j t.fg =
        if j = i ∧ i < s.cfg.n then s.latch.color else Memory.read j s.fg)

/-- 40_buffer_grid.md R90: TRANSLATE writes RESULT and clears BUSY; it flags nothing. -/
def Obligations.TranslateWritesResultAlone : Prop :=
  ∀ s : State, exec .translate s = .next { s with
    result := translateXY s.cfg s.latch.x s.latch.y, status := { s.status with busy := false } }

/-- 40_buffer_grid.md R91: CLEAR zeroes every foreground cell and clears BUSY; BG is not touched. -/
def Obligations.ClearZeroesTheForeground : Prop :=
  ∀ s : State, Memory.wf s.fg = true → ∃ t, exec .clear s = .next t ∧ s.SameButFgStatus t ∧
    t.status = { s.status with busy := false } ∧
    (∀ j, Memory.read j t.fg = if j < s.cfg.n then 0 else Memory.read j s.fg)

/-- 40_buffer_grid.md R92: CLEARBG zeroes every background cell and clears BUSY; FG is not touched. In a
block without a background it is never accepted. -/
def Obligations.ClearbgZeroesTheBackground : Prop :=
  (∀ s : State, Memory.wf s.bg = true → ∃ t, exec .clearbg s = .next t ∧ s.SameButBgStatus t ∧
    t.status = { s.status with busy := false } ∧
    (∀ j, Memory.read j t.bg = if j < s.cfg.n then 0 else Memory.read j s.bg)) ∧
  (∀ s : State, s.cfg.hasBg = false → s.status.busy = false →
    (s.access ⟨.write, 0x000, 4, 0x00000004⟩).1 = { s with status := { s.status with ill := true } })

/-- 40_buffer_grid.md R93, "Equivalently": SETRANGE writes its colour into the cells of
`L.idx .. L.idx2` below N and no other, sets DROP exactly when `L.idx <= L.idx2` and `L.idx2 >= N`, and
clears BUSY; reversed bounds write nothing. -/
def Obligations.SetrangeFillsTheInclusiveRange : Prop :=
  ∀ s : State, Memory.wf s.fg = true → ∃ t, exec .setrange s = .next t ∧ s.SameButFgStatus t ∧
    t.status = { s.status with
      busy := false
      drop := s.status.drop ||
        decide (s.latch.idx.toNat ≤ s.latch.idx2.toNat ∧ s.cfg.n ≤ s.latch.idx2.toNat) } ∧
    (s.latch.idx2.toNat < s.latch.idx.toNat → t.fg = s.fg) ∧
    (∀ j, Memory.read j t.fg =
      if s.latch.idx.toNat ≤ j ∧ j ≤ s.latch.idx2.toNat ∧ j < s.cfg.n then s.latch.color
      else Memory.read j s.fg)

/-- 40_buffer_grid.md R93, the pseudocode: SETRANGE is the loop of single pixel writes over its range, then
the clearing of BUSY; with reversed bounds only the latter. -/
def Obligations.SetrangeIsTheLoopOfPixelWrites : Prop :=
  ∀ s : State, exec .setrange s = .next
    (if s.latch.idx.toNat ≤ s.latch.idx2.toNat then
      (pixelLoop s.latch.color (s.latch.idx2.toNat + 1 - s.latch.idx.toNat) s.latch.idx.toNat s).complete
    else s.complete)

/-- 45_transmit.md R99: each Engine step of TRANSMIT emits the next event of its frame, taken from FG and
BG at the first step, and the step of the last event also ends the command. Nothing else changes. -/
def Obligations.TransmitStepEmitsTheNextEvent : Prop :=
  ∀ s : State, s.cfg.wellFormed = true → s.seq ≠ some [] →
    ∃ e es t, (match s.seq with
        | none => frameEvents s.cfg s.fg s.bg = e :: es
        | some l => l = e :: es) ∧
      exec .transmit s = .next t ∧ s.SameButWireStatus t ∧
      t.trace = s.trace ++ [e] ∧ t.lines = linesAfter s.cfg s.lines e ∧
      t.seq = (if es = [] then none else some es) ∧
      t.status = { s.status with busy := if es = [] then false else s.status.busy }

/-- The model's own choice (notes/assumptions/8.md): two states that no run reaches stop by name, TRANSMIT
with an empty list in the sequencer, and BUSY = 1 with a latch that holds no legal command. -/
def Obligations.UnreachableStatesStopByName : Prop :=
  (∀ s : State, s.seq = some [] → exec .transmit s = .fault .sequencerEmpty) ∧
  (∀ s : State, s.status.busy = true → s.heldInstr = none → engineStep s = .fault .heldCommandIllegal)

/-! ## The wire (45_transmit.md) -/

/-- 45_transmit.md R95: the value sent for a pixel, and that sending it changes neither buffer. -/
def Obligations.TransmittedValueComposites : Prop :=
  (∀ (c : Config) (fg bg : Memory) (i : Nat), txValue c fg bg i =
    if c.hasBg = true ∧ Memory.read i fg = 0 then Memory.read i bg else Memory.read i fg) ∧
  (∀ s t : State, exec .transmit s = .next t → t.fg = s.fg ∧ t.bg = s.bg)

/-- 45_transmit.md R96, R98: the frame's event list in each mode, and its `24*N` data bits: bit `k` of pixel
`p` is `TxValue(p)[23-k]`. -/
def Obligations.FrameIsPixelsAscendingMsbFirst : Prop :=
  ∀ (c : Config) (fg bg : Memory), ∃ bits : List Bool,
    bits.length = 24 * c.n ∧
    (∀ p k, p < c.n → k < 24 → bits[24 * p + k]? = some ((txValue c fg bg p).getLsbD (23 - k))) ∧
    frameEvents c fg bg =
      (if c.mode = .manual then [.settle] ++ bits.map .bit ++ [.settle]
       else if c.frame = true then [.frmLow] ++ bits.map .bit ++ [.frmHigh]
       else bits.map .bit)

/-- 45_transmit.md R97: Emit appends its event and leaves the lines at the table's levels; these are also
the levels where the event's pin actions of R101 to R104 end. -/
def Obligations.EmitLeavesTheLinesOfTheTable : Prop :=
  ∀ (s : State) (e : WireEvent) (lead trail : Nat),
    s.emit e = { s with
      trace := s.trace ++ [e]
      lines := match e with
        | .bit b => { clk := decide (s.cfg.mode = .manual), dat := b, frm := s.lines.frm }
        | .settle => { clk := false, dat := s.lines.dat, frm := s.lines.frm }
        | .frmLow => { clk := s.lines.clk, dat := s.lines.dat, frm := false }
        | .frmHigh => { clk := s.lines.clk, dat := s.lines.dat, frm := true }
        | .reset => { clk := false, dat := false, frm := true } } ∧
    (s.emit e).lines = (pinActions s.cfg lead trail e).foldl drive s.lines

/-- 45_transmit.md R105: sampling DAT at every rising edge of CLK, the string receives exactly the data
bits of the frame, the same ones in both modes, framed or not. -/
def Obligations.StringReceivesExactlyTheDataBits : Prop :=
  ∀ (c : Config) (fg bg : Memory) (m : TxMode) (f : Bool) (lead trail : Nat) (d : Bool),
    let c' : Config := { c with mode := m, frame := f }
    sampled { clk := false, dat := d, frm := true } (waveform c' lead trail 0 (frameEvents c' fg bg))
      = (List.range c.n).flatMap fun i => (List.range 24).map fun k =>
          (txValue c fg bg i).getLsbD (23 - k)

/-- 45_transmit.md R101, R103: over a whole frame DAT is driven only while CLK is low. -/
def Obligations.DatIsDrivenOnlyWhileClkIsLow : Prop :=
  ∀ (c : Config) (fg bg : Memory) (lead trail : Nat) (d : Bool),
    datSteady { clk := false, dat := d, frm := true } (waveform c lead trail 0 (frameEvents c fg bg)) = true

/-- 45_transmit.md R106: the Engine clock cycles of a whole frame; `lead` and `trail` are the cycles around
the framing pulses, which R106 leaves unspecified. -/
def Obligations.FrameTakesTheDerivedCycles : Prop :=
  ∀ (c : Config) (fg bg : Memory) (lead trail : Nat),
    cycles (waveform c lead trail 0 (frameEvents c fg bg)) =
      if c.mode = .manual then 2 * c.settle + 48 * c.n * c.clkdiv
      else (if c.frame = true then lead + trail else 0)
        + (48 * c.n * c.clkdiv + (3 * c.n - 1) * c.byteGap)

/-- 45_transmit.md R99, R100, 20_memory.md R55: left to run, a TRANSMIT just accepted puts exactly the
frame of its buffers on the wire, event by event, and BUSY is 1 until the last event and 0 after it;
nothing else changes. -/
def Obligations.TransmitSendsTheWholeFrame : Prop :=
  ∀ s : State, s.cfg.wellFormed = true → s.status.busy = true → s.heldInstr = some .transmit →
    s.seq = none →
    (∀ k, k < (frameEvents s.cfg s.fg s.bg).length → ∃ t, engineRun k s = .next t ∧
      t.status.busy = true ∧ t.trace = s.trace ++ (frameEvents s.cfg s.fg s.bg).take k) ∧
    engineRun (frameEvents s.cfg s.fg s.bg).length s = .next { s with
      status := { s.status with busy := false }
      trace := s.trace ++ frameEvents s.cfg s.fg s.bg
      lines := (frameEvents s.cfg s.fg s.bg).foldl (linesAfter s.cfg) s.lines }

/-! ## The step (00_scope.md R18, 30_encoding.md R67) -/

/-- 30_encoding.md R67: the Engine's step is the held command's while BUSY = 1, and every command but
TRANSMIT is over in one step. The model's choice: while BUSY = 0, where R67 says that the Engine has no step,
its turn changes nothing (notes/assumptions/3.md). The last clause holds for CLEARBG without a background too,
which acceptance never lets in (notes/assumptions/7.md). -/
def Obligations.EngineStepPerformsTheHeldCommand : Prop :=
  ∀ s : State,
    (s.status.busy = false → engineStep s = .next s) ∧
    (∀ i, s.status.busy = true → s.heldInstr = some i → engineStep s = exec i s) ∧
    (∀ i, i ≠ .transmit → ∃ t, exec i s = .next t ∧ t.status.busy = false)

/-- 30_encoding.md R67: a step at the Engine's turn runs the command decoded from the latch; the turn, if one
is listed, is used up (the list of turns is the model's choice, notes/assumptions/3.md). -/
def Obligations.StepRunsTheDecodedCommand : Prop :=
  ∀ (s : State) (i : Instr), s.cfg.wellFormed = true → s.status.busy = true →
    decode (0#23 ++ BitVec.ofBool s.latch.a ++ s.latch.op) = .ok i → i.wellFormed s.cfg = true →
    (s.turns = [] → step s = exec i s) ∧
    (∀ ts, s.turns = .engine :: ts → step s = exec i { s with turns := ts })

/-- 00_scope.md R18: a listed turn is the named agent's, and with none listed the Engine moves while
BUSY = 1 and else the Host (the default is the model's choice, notes/assumptions/3.md). -/
def Obligations.StepIsOneTurnOfOneAgent : Prop :=
  ∀ s : State, s.cfg.wellFormed = true →
    (∀ ts, s.turns = .host :: ts → step s = .next ({ s with turns := ts } : State).hostStep) ∧
    (∀ ts, s.turns = .engine :: ts → step s = engineStep { s with turns := ts }) ∧
    (∀ ts, s.turns = .reset :: ts → step s = .next ({ s with turns := ts } : State).resetBlock) ∧
    (s.turns = [] → s.status.busy = true → step s = engineStep s) ∧
    (s.turns = [] → s.status.busy = false → step s = .next s.hostStep)

/-- 00_scope.md R19, R8, R14: a configuration out of range is refused, and only that. -/
def Obligations.OutOfRangeConfigurationIsRefused : Prop :=
  (∀ c : Config, c.wellFormed = true ↔
    (1 ≤ c.width ∧ c.width ≤ 65535) ∧ (1 ≤ c.height ∧ c.height ≤ 65535) ∧ c.width * c.height ≤ 2 ^ 22 ∧
    (1 ≤ c.clkdiv ∧ c.clkdiv ≤ 65535) ∧ (1 ≤ c.settle ∧ c.settle ≤ 2 ^ 32 - 1) ∧
    c.byteGap ≤ 2 ^ 32 - 1) ∧
  (∀ (s : State) (r : Refusal), step s = .refused r ↔
    s.cfg.wellFormed = false ∧ r = .configOutOfRange)

/-- 70_reset_and_hazards.md R124: what a reset leaves, at any time, with a command in flight or not; the
configuration, the Host and the turns to come stay. R125: power-on leaves the same with an empty trace
(and, the model's own, a Host without a program, notes/assumptions/4.md). -/
def Obligations.ResetSetsEveryPieceOfState : Prop :=
  (∀ s : State, State.powerOn s.cfg = { s.resetBlock with
    trace := [], host := { regs := .zero, prog := [], pc := 0 }, turns := [] }) ∧
  ∀ (s : State) (ts : List Turn), s.cfg.wellFormed = true → s.turns = .reset :: ts →
    ∃ t, step s = .next t ∧ t.cfg = s.cfg ∧ t.host = s.host ∧ t.turns = ts ∧
      (∀ i, Memory.read i t.fg = 0 ∧ Memory.read i t.bg = 0) ∧
      t.idx = 0 ∧ t.idx2 = 0 ∧ t.color = 0 ∧ t.xy = 0 ∧ t.result = 0 ∧ t.status.toWord = 0 ∧
      t.latch = { op := 0, a := false, idx := 0, idx2 := 0, color := 0, x := 0, y := 0 } ∧
      t.seq = none ∧ t.lines = { clk := false, dat := false, frm := true } ∧
      t.trace = s.trace ++ [.reset]

/-! ## Invariants and whole-machine rules -/

/-- The invariant holds at power-on, of every configuration in range, and so at `State.reset`. -/
def Obligations.PowerOnMeetsTheInvariant : Prop :=
  (∀ c : Config, c.wellFormed = true → (State.powerOn c).Inv) ∧ State.reset.Inv

/-- Every step keeps the invariant: canonical buffers of N cells, a legal command while BUSY = 1, a frame
in flight that is the buffers' frame partly sent, idle lines between frames. -/
def Obligations.StepKeepsTheInvariant : Prop :=
  ∀ s t : State, s.Inv → step s = .next t → t.Inv

/-- 00_scope.md R19: no access and no command faults or halts: from every state of the invariant the step
answers a next state. -/
def Obligations.NoStepFaultsOrHalts : Prop :=
  ∀ s : State, s.Inv → ∃ t, step s = .next t

/-- 92_eei_decisions.md D33, 70_reset_and_hazards.md R136: every accepted command completes. The bound of
`24*N + 2` Engine steps is that of the longest frame, one event a step (30_encoding.md R67, 45_transmit.md
R98, R99). -/
def Obligations.EveryAcceptedCommandCompletes : Prop :=
  ∀ s : State, s.Inv → ∃ k t, k ≤ 24 * s.cfg.n + 2 ∧ engineRun k s = .next t ∧ t.status.busy = false

/-- 70_reset_and_hazards.md R125, 10_state.md R40: no step changes the configuration or removes an event
from the wire trace. -/
def Obligations.ConfigurationIsFixedAndTraceOnlyGrows : Prop :=
  ∀ s t : State, step s = .next t → t.cfg = s.cfg ∧ (t.trace = s.trace ∨ ∃ e, t.trace = s.trace ++ [e])

/-- 10_state.md R39, R40: the lines and the trace change only in an Engine step of TRANSMIT and at reset. -/
def Obligations.WireChangesOnlyInTransmitOrReset : Prop :=
  ∀ s t : State, step s = .next t → (t.lines ≠ s.lines ∨ t.trace ≠ s.trace) →
    s.takeTurn.1 = .reset ∨
    (s.takeTurn.1 = .engine ∧ s.status.busy = true ∧ s.heldInstr = some .transmit)

/-- 10_state.md R29: RESULT changes only in the Engine's step of TRANSLATE, and at reset. -/
def Obligations.ResultChangesOnlyInTranslateOrReset : Prop :=
  ∀ s t : State, step s = .next t → t.result ≠ s.result →
    s.takeTurn.1 = .reset ∨
    (s.takeTurn.1 = .engine ∧ s.status.busy = true ∧ s.heldInstr = some .translate)

/-- 10_state.md R37, 70_reset_and_hazards.md R132: the operand latch changes only at the acceptance of a
command, a Host step that finds BUSY = 0 and leaves it 1, and at reset. -/
def Obligations.LatchChangesOnlyAtAcceptanceOrReset : Prop :=
  ∀ s t : State, step s = .next t → t.latch ≠ s.latch →
    s.takeTurn.1 = .reset ∨
    (s.takeTurn.1 = .host ∧ s.status.busy = false ∧ t.status.busy = true)

/-- 10_state.md R22, R23, 30_encoding.md R66, R67: BUSY rises only in a Host step that writes a legal command
word to CMD, and falls only in the Engine's step that ends the held command (for TRANSMIT, the step of its last
event) or at reset. -/
def Obligations.BusyRisesAtAcceptanceAndFallsAtCompletion : Prop :=
  ∀ s t : State, step s = .next t →
    (s.status.busy = false → t.status.busy = true →
      s.takeTurn.1 = .host ∧ ∃ p n e i, s.host.prog[s.host.pc]? = some (.write p n e) ∧ n = 4 ∧
        p.offsetIn s.host.regs = 0x000 ∧ legalInstr s.cfg (e.eval s.host.regs) = some i) ∧
    (s.status.busy = true → t.status.busy = false →
      s.takeTurn.1 = .reset ∨
      (s.takeTurn.1 = .engine ∧ ∃ i, s.heldInstr = some i ∧
        (i = .transmit → ∃ e, s.pendingEvents = [e] ∧ t.trace = s.trace ++ [e])))

/-- 60_exceptions.md R115: a sticky flag falls only by a STATUS write with a 1 in its bit, or at reset. -/
def Obligations.FlagFallsOnlyByStatusWriteOrReset : Prop :=
  ∀ (s t : State) (f : StickyFlag), step s = .next t → s.status.flag f = true → t.status.flag f = false →
    s.takeTurn.1 = .reset ∨
    (s.takeTurn.1 = .host ∧ ∃ p n e, s.host.prog[s.host.pc]? = some (.write p n e) ∧ n = 4 ∧
      p.offsetIn s.host.regs = 0x004 ∧ (e.eval s.host.regs).getLsbD f.code = true)

/-- 10_state.md R35: the write paths of FG are SETPIX, SETPIXXY, CLEAR, SETRANGE, the foreground window and
reset; in particular TRANSMIT only reads it. -/
def Obligations.ForegroundWritePaths : Prop :=
  ∀ s t : State, step s = .next t → t.fg ≠ s.fg →
    s.takeTurn.1 = .reset ∨
    (s.takeTurn.1 = .engine ∧ s.status.busy = true ∧
      s.heldInstr ∈ [some .setpix, some .setpixxy, some .clear, some .setrange]) ∨
    (s.takeTurn.1 = .host ∧ s.status.busy = false ∧
      ∃ p e, s.host.prog[s.host.pc]? = some (.write p 4 e) ∧
        0x01000000 ≤ (p.offsetIn s.host.regs).toNat ∧ (p.offsetIn s.host.regs).toNat < 0x02000000)

/-- 10_state.md R36: the write paths of BG are CLEARBG, the background window and reset; TRANSMIT never
writes it. -/
def Obligations.BackgroundWritePaths : Prop :=
  ∀ s t : State, step s = .next t → t.bg ≠ s.bg →
    s.takeTurn.1 = .reset ∨
    (s.takeTurn.1 = .engine ∧ s.status.busy = true ∧ s.heldInstr = some .clearbg) ∨
    (s.takeTurn.1 = .host ∧ s.status.busy = false ∧ s.cfg.hasBg = true ∧
      ∃ p e, s.host.prog[s.host.pc]? = some (.write p 4 e) ∧
        0x02000000 ≤ (p.offsetIn s.host.regs).toNat ∧ (p.offsetIn s.host.regs).toNat < 0x03000000)

/-- 20_memory.md R51, 70_reset_and_hazards.md R130, R132: while BUSY = 1 no Host step changes a buffer, the
command in flight, RESULT, the lines or the trace, and BUSY stays 1. -/
def Obligations.HostStepLeavesACommandInFlightAlone : Prop :=
  ∀ s : State, s.status.busy = true →
    s.hostStep.fg = s.fg ∧ s.hostStep.bg = s.bg ∧ s.hostStep.latch = s.latch ∧ s.hostStep.seq = s.seq ∧
    s.hostStep.result = s.result ∧ s.hostStep.lines = s.lines ∧ s.hostStep.trace = s.trace ∧
    s.hostStep.status.busy = true

/-! ## The Host (30_encoding.md R70 to R72) -/

/-- 30_encoding.md R70, R71: `W` and `R` make one bus access, the host-side operations touch only the Host,
and each does what the notation says. That an operation is one step, and that the Host keeps the index of its
next one, is the model's choice (notes/assumptions/4.md), as are the access sizes other than 4
(notes/assumptions/12.md). -/
def Obligations.HostOperationsFollowTheNotation : Prop :=
  ∀ (s : State) (o : HostOp Nat), s.host.prog[s.host.pc]? = some o →
    let r := s.host.regs
    let p := s.host.pc + 1
    match o with
    | .mov h e => s.hostStep = { s with host := { s.host with regs := r.set h (e.eval r), pc := p } }
    | .add h a e =>
      s.hostStep = { s with host := { s.host with regs := r.set h (a.eval r + e.eval r), pc := p } }
    | .sub h a e =>
      s.hostStep = { s with host := { s.host with regs := r.set h (a.eval r - e.eval r), pc := p } }
    | .and h a e =>
      s.hostStep = { s with host := { s.host with regs := r.set h (a.eval r &&& e.eval r), pc := p } }
    | .bnz h t => s.hostStep = { s with host := { s.host with pc := if r.get h = 0 then p else t } }
    | .bltu a b t =>
      s.hostStep = { s with host := { s.host with pc := if a.eval r < b.eval r then t else p } }
    | .jump t => s.hostStep = { s with host := { s.host with pc := t } }
    | .halt => s.hostStep = s
    | .write pl n e => s.hostStep =
        { (s.access ⟨.write, pl.offsetIn r, n, e.eval r⟩).1 with host := { s.host with pc := p } }
    | .read h pl n => s.hostStep =
        { (s.access ⟨.read, pl.offsetIn r, n, 0⟩).1 with
          host := { s.host with regs := r.set h (s.access ⟨.read, pl.offsetIn r, n, 0⟩).2, pc := p } }

/-- 30_encoding.md R72: once round the POLL loop, the Host is past it exactly when BUSY was 0, with BUSY in
h7; the block is not touched. That the three operations are three Host steps is the model's choice
(notes/assumptions/4.md). -/
def Obligations.PollLoopsExactlyWhileBusy : Prop :=
  ∀ (s : State) (p : Nat), s.host.pc = p →
    s.host.prog[p]? = some (.read .h7 (.reg .status) 4) →
    s.host.prog[p + 1]? = some (.and .h7 (.reg .h7) (.const 1)) →
    s.host.prog[p + 2]? = some (.bnz .h7 p) →
    s.hostStep.hostStep.hostStep = { s with host := { s.host with
      regs := { s.host.regs with h7 := if s.status.busy then 1 else 0 }
      pc := if s.status.busy then p else p + 3 } }

/-- 30_encoding.md R72 to R79: what each pseudo-instruction placed at index `p` expands to; `POLL` is the
three operations of R72 with its label at its own place. The register `h` of `ALL` is the model's choice
(notes/assumptions/12.md). -/
def Obligations.PseudoInstructionsExpand : Prop :=
  ∀ (p : Nat) (i c s e : HExpr) (r g b : Byte) (x y : Coord) (h : HReg),
    let poll (q : Nat) : HostProg :=
      [.read .h7 (.reg .status) 4, .and .h7 (.reg .h7) (.const 1), .bnz .h7 q]
    let w (n : RegName) (e : HExpr) : HostOp Nat := .write (.reg n) 4 e
    Pseudo.poll.expandAt p = poll p ∧
    (Pseudo.setPixel i c).expandAt p =
      [w .idx i, w .color c, w .cmd (.const 0x00000001)] ++ poll (p + 3) ∧
    (Pseudo.setPixelRgb i r g b).expandAt p = (Pseudo.setPixel i (.pack r g b)).expandAt p ∧
    (Pseudo.setXY x y c).expandAt p =
      [w .xy (.xy x y), w .color c, w .cmd (.const 0x00000101)] ++ poll (p + 3) ∧
    (Pseudo.translate h x y).expandAt p =
      [w .xy (.xy x y), w .cmd (.const 0x00000002)] ++ poll (p + 2) ++ [.read h (.reg .result) 4] ∧
    Pseudo.clear.expandAt p = [w .cmd (.const 0x00000003)] ++ poll (p + 1) ∧
    Pseudo.clearBg.expandAt p = [w .cmd (.const 0x00000004)] ++ poll (p + 1) ∧
    (Pseudo.setRange s e c).expandAt p =
      [w .idx s, w .idx2 e, w .color c, w .cmd (.const 0x00000005)] ++ poll (p + 4) ∧
    Pseudo.showFrame.expandAt p = [w .cmd (.const 0x00000006)] ++ poll (p + 1) ∧
    (Pseudo.all h c).expandAt p =
      [.read h (.reg .npix) 4, .sub h (.reg h) (.const 1)]
        ++ (Pseudo.setRange (.const 0) (.reg h) c).expandAt (p + 2)
end

