-- ==== Sys2Proof/Laws/Memory.lean ====
section
/-! SUPPORT. The pixel buffers as memory: a cell reads what was last written to it, a write leaves every other cell,
and every operation keeps the canonical form, in which equal buffers are equal data. -/

namespace Sys2Proof.Machine

/-- Every listed index is above `i`. -/
def Memory.above (i : Nat) (m : Memory) : Prop := ∀ p ∈ m, i < p.1

/-- The canonical form of a nonempty buffer: its first cell is not 0 and stands before the rest. -/
theorem Memory.wf_cons_iff (i : Nat) (c : Color) (m : Memory) :
    Memory.wf ((i, c) :: m) = true ↔ c ≠ 0 ∧ Memory.above i m ∧ Memory.wf m = true := by
  induction m generalizing i c with
  | nil => simp [Memory.wf, Memory.above]
  | cons p m ih =>
    obtain ⟨j, d⟩ := p
    simp only [Memory.wf, Bool.and_eq_true, decide_eq_true_eq, Memory.above, List.forall_mem_cons]
    constructor
    · rintro ⟨⟨hc, hij⟩, h⟩
      exact ⟨hc, ⟨hij, fun p hp => lt_trans hij (((ih j d).mp h).2.1 p hp)⟩, h⟩
    · rintro ⟨hc, ⟨hij, _⟩, h⟩
      exact ⟨⟨hc, hij⟩, h⟩

/-- A cell before every listed one reads 0. -/
theorem Memory.read_of_above {i : Nat} {m : Memory} (h : Memory.above i m) : Memory.read i m = 0 := by
  induction m with
  | nil => rfl
  | cons p m ih =>
    obtain ⟨j, d⟩ := p
    simp only [Memory.above, List.forall_mem_cons] at h
    simp [Memory.read, h.1.ne, ih h.2]

@[simp] theorem Memory.read_nil (i : Nat) : Memory.read i [] = 0 := rfl

theorem Memory.read_cons (j i : Nat) (c : Color) (m : Memory) (h : Memory.above i m) :
    Memory.read j (Memory.cons i c m) = if j = i then c else Memory.read j m := by
  unfold Memory.cons
  split
  · split
    · subst_vars; exact Memory.read_of_above h
    · rfl
  · rfl

theorem Memory.above_mono {i j : Nat} {m : Memory} (hij : i ≤ j) (h : Memory.above j m) :
    Memory.above i m := fun p hp => lt_of_le_of_lt hij (h p hp)

/-- Reading after a write: the written cell reads the colour written, every other what it read before. -/
theorem Memory.read_write (j i : Nat) (c : Color) {m : Memory} (h : Memory.wf m = true) :
    Memory.read j (Memory.write i c m) = if j = i then c else Memory.read j m := by
  induction m with
  | nil => exact Memory.read_cons j i c [] (by simp [Memory.above])
  | cons p m ih =>
    obtain ⟨k, d⟩ := p
    obtain ⟨-, hab, hwf⟩ := (Memory.wf_cons_iff k d m).mp h
    unfold Memory.write
    split
    · rename_i hik
      refine Memory.read_cons j i c _ ?_
      simpa [Memory.above, hik] using Memory.above_mono hik.le hab
    · split
      · subst_vars
        rw [Memory.read_cons j _ c m hab]
        simp only [Memory.read]
        split <;> rfl
      · rename_i h1 h2
        simp only [Memory.read, ih hwf]
        by_cases hjk : j = k
        · rw [if_pos hjk, if_pos hjk, if_neg (by omega)]
        · rw [if_neg hjk, if_neg hjk]

theorem Memory.above_write {k i : Nat} {c : Color} {m : Memory} (hki : k < i) (h : Memory.above k m) :
    Memory.above k (Memory.write i c m) := by
  induction m with
  | nil =>
    unfold Memory.write Memory.cons
    split <;> simp [Memory.above, hki]
  | cons p m ih =>
    obtain ⟨j, d⟩ := p
    simp only [Memory.above, List.forall_mem_cons] at h
    have hm : Memory.above k m := h.2
    unfold Memory.write Memory.cons
    split <;> [skip; split] <;> try split
    all_goals simp only [Memory.above, List.forall_mem_cons]
    · exact h
    · exact ⟨hki, h⟩
    · exact hm
    · exact ⟨hki, hm⟩
    · exact ⟨h.1, ih hm⟩

/-- A write keeps the canonical form. -/
theorem Memory.wf_write (i : Nat) (c : Color) {m : Memory} (h : Memory.wf m = true) :
    Memory.wf (Memory.write i c m) = true := by
  induction m with
  | nil =>
    unfold Memory.write Memory.cons
    split <;> simp_all [Memory.wf]
  | cons p m ih =>
    obtain ⟨j, d⟩ := p
    obtain ⟨hd, hab, hwf⟩ := (Memory.wf_cons_iff j d m).mp h
    unfold Memory.write Memory.cons
    split
    · rename_i hij
      split
      · exact h
      · rename_i hc
        refine (Memory.wf_cons_iff i c _).mpr ⟨hc, ?_, h⟩
        simpa [Memory.above, hij] using Memory.above_mono hij.le hab
    · split
      · subst_vars
        split
        · exact hwf
        · rename_i hc
          exact (Memory.wf_cons_iff _ c m).mpr ⟨hc, hab, hwf⟩
      · rename_i h1 h2
        exact (Memory.wf_cons_iff j d _).mpr ⟨hd, Memory.above_write (by omega) hab, ih hwf⟩

/-- A write below `n` lists only cells below `n`. -/
theorem Memory.below_write {n i : Nat} (c : Color) {m : Memory} (hi : i < n)
    (h : Memory.below n m = true) : Memory.below n (Memory.write i c m) = true := by
  induction m with
  | nil =>
    unfold Memory.write Memory.cons
    split <;> simp [Memory.below, hi]
  | cons p m ih =>
    obtain ⟨j, d⟩ := p
    simp only [Memory.below, List.all_cons, Bool.and_eq_true, decide_eq_true_eq] at h ih
    unfold Memory.write Memory.cons
    split <;> [skip; split] <;> try split
    all_goals simp only [Memory.below, List.all_cons, Bool.and_eq_true, decide_eq_true_eq]
    · exact h
    · exact ⟨hi, h⟩
    · exact h.2
    · exact ⟨hi, h.2⟩
    · exact ⟨h.1, ih h.2⟩

theorem Memory.wf_fill (i : Nat) (c : Color) (k : Nat) {m : Memory} (h : Memory.wf m = true) :
    Memory.wf (Memory.fill i c k m) = true := by
  induction k generalizing i m with
  | zero => exact h
  | succ k ih => exact ih (i + 1) (Memory.wf_write i c h)

/-- Reading after a fill of the `k` cells from `i` on. -/
theorem Memory.read_fill (j i : Nat) (c : Color) (k : Nat) {m : Memory} (h : Memory.wf m = true) :
    Memory.read j (Memory.fill i c k m) = if i ≤ j ∧ j < i + k then c else Memory.read j m := by
  induction k generalizing i m with
  | zero => rw [Memory.fill, if_neg (by omega)]
  | succ k ih =>
    rw [Memory.fill, ih (i + 1) (Memory.wf_write i c h), Memory.read_write j i c h]
    by_cases h1 : i ≤ j ∧ j < i + (k + 1)
    · rw [if_pos h1]
      by_cases h2 : j = i
      · rw [if_pos h2, ite_self]
      · rw [if_pos (by omega)]
    · rw [if_neg h1, if_neg (by omega), if_neg (by omega)]

theorem Memory.below_fill {n i : Nat} (c : Color) (k : Nat) {m : Memory} (hi : i + k ≤ n)
    (h : Memory.below n m = true) : Memory.below n (Memory.fill i c k m) = true := by
  induction k generalizing i m with
  | zero => exact h
  | succ k ih => exact ih (by omega) (Memory.below_write c (by omega) h)

/-- Filling with 0 from an empty buffer lists nothing. -/
@[simp] theorem Memory.fill_zero_nil (i k : Nat) : Memory.fill i 0#24 k [] = [] := by
  induction k generalizing i with
  | zero => rfl
  | succ k ih => simpa [Memory.fill, Memory.write, Memory.cons] using ih (i + 1)

/-- A cell from `n` on reads 0 when only cells below `n` are listed. -/
theorem Memory.read_of_below {n i : Nat} {m : Memory} (h : Memory.below n m = true) (hi : n ≤ i) :
    Memory.read i m = 0 := by
  induction m with
  | nil => rfl
  | cons p m ih =>
    obtain ⟨j, d⟩ := p
    simp only [Memory.below, List.all_cons, Bool.and_eq_true, decide_eq_true_eq] at h ih
    simp [Memory.read, show i ≠ j by omega, ih h.2]

/-- Equal reads of canonical buffers are equal data. -/
theorem Memory.ext_of_read {m n : Memory} (hm : Memory.wf m = true) (hn : Memory.wf n = true)
    (h : ∀ i, Memory.read i m = Memory.read i n) : m = n := by
  induction m generalizing n with
  | nil =>
    cases n with
    | nil => rfl
    | cons q n =>
      obtain ⟨j, d⟩ := q
      obtain ⟨hd, -, -⟩ := (Memory.wf_cons_iff j d n).mp hn
      exact absurd (by simpa [Memory.read] using (h j).symm) hd
  | cons p m ih =>
    obtain ⟨i, c⟩ := p
    obtain ⟨hc, hab, hwf⟩ := (Memory.wf_cons_iff i c m).mp hm
    cases n with
    | nil => exact absurd (by simpa [Memory.read] using h i) hc
    | cons q n =>
      obtain ⟨j, d⟩ := q
      obtain ⟨hd, hab', hwf'⟩ := (Memory.wf_cons_iff j d n).mp hn
      have hij : i = j := by
        rcases lt_trichotomy i j with hlt | heq | hgt
        · have := h i
          rw [Memory.read_of_above (m := (j, d) :: n)
            (by simpa [Memory.above, hlt] using Memory.above_mono hlt.le hab')] at this
          exact absurd (by simpa [Memory.read] using this) hc
        · exact heq
        · have := h j
          rw [Memory.read_of_above (m := (i, c) :: m)
            (by simpa [Memory.above, hgt] using Memory.above_mono hgt.le hab)] at this
          exact absurd (by simpa [Memory.read] using this.symm) hd
      subst hij
      have hcd : c = d := by simpa [Memory.read] using h i
      subst hcd
      rw [ih hwf hwf' fun k => ?_]
      by_cases hk : k = i
      · subst hk; rw [Memory.read_of_above hab, Memory.read_of_above hab']
      · simpa [Memory.read, hk] using h k

/-- Writing a cell twice is writing it once. -/
theorem Memory.write_write (i : Nat) (c : Color) {m : Memory} (h : Memory.wf m = true) :
    Memory.write i c (Memory.write i c m) = Memory.write i c m := by
  refine Memory.ext_of_read (Memory.wf_write i c (Memory.wf_write i c h)) (Memory.wf_write i c h) ?_
  intro j
  rw [Memory.read_write j i c (Memory.wf_write i c h), Memory.read_write j i c h]
  split <;> rfl

end Sys2Proof.Machine
end

