-- ==== Sys2Proof/Laws/State.lean ====
section
/-! SUPPORT. What each named update of State does to each field, so that no proof unfolds an update. -/

namespace Sys2Proof.Machine

variable (s : State)

@[simp] theorem raise_cfg (f : StickyFlag) : (s.raise f).cfg = s.cfg := rfl
@[simp] theorem raise_status (f : StickyFlag) : (s.raise f).status = s.status.set f := rfl
@[simp] theorem raise_idx (f : StickyFlag) : (s.raise f).idx = s.idx := rfl
@[simp] theorem raise_idx2 (f : StickyFlag) : (s.raise f).idx2 = s.idx2 := rfl
@[simp] theorem raise_color (f : StickyFlag) : (s.raise f).color = s.color := rfl
@[simp] theorem raise_xy (f : StickyFlag) : (s.raise f).xy = s.xy := rfl
@[simp] theorem raise_result (f : StickyFlag) : (s.raise f).result = s.result := rfl
@[simp] theorem raise_fg (f : StickyFlag) : (s.raise f).fg = s.fg := rfl
@[simp] theorem raise_bg (f : StickyFlag) : (s.raise f).bg = s.bg := rfl
@[simp] theorem raise_latch (f : StickyFlag) : (s.raise f).latch = s.latch := rfl
@[simp] theorem raise_seq (f : StickyFlag) : (s.raise f).seq = s.seq := rfl
@[simp] theorem raise_lines (f : StickyFlag) : (s.raise f).lines = s.lines := rfl
@[simp] theorem raise_trace (f : StickyFlag) : (s.raise f).trace = s.trace := rfl
@[simp] theorem raise_host (f : StickyFlag) : (s.raise f).host = s.host := rfl
@[simp] theorem raise_turns (f : StickyFlag) : (s.raise f).turns = s.turns := rfl

@[simp] theorem clearFlags_cfg (v : Word) : (s.clearFlags v).cfg = s.cfg := rfl
@[simp] theorem clearFlags_status (v : Word) : (s.clearFlags v).status = s.status.clearBy v := rfl
@[simp] theorem clearFlags_idx (v : Word) : (s.clearFlags v).idx = s.idx := rfl
@[simp] theorem clearFlags_idx2 (v : Word) : (s.clearFlags v).idx2 = s.idx2 := rfl
@[simp] theorem clearFlags_color (v : Word) : (s.clearFlags v).color = s.color := rfl
@[simp] theorem clearFlags_xy (v : Word) : (s.clearFlags v).xy = s.xy := rfl
@[simp] theorem clearFlags_result (v : Word) : (s.clearFlags v).result = s.result := rfl
@[simp] theorem clearFlags_fg (v : Word) : (s.clearFlags v).fg = s.fg := rfl
@[simp] theorem clearFlags_bg (v : Word) : (s.clearFlags v).bg = s.bg := rfl
@[simp] theorem clearFlags_latch (v : Word) : (s.clearFlags v).latch = s.latch := rfl
@[simp] theorem clearFlags_seq (v : Word) : (s.clearFlags v).seq = s.seq := rfl
@[simp] theorem clearFlags_lines (v : Word) : (s.clearFlags v).lines = s.lines := rfl
@[simp] theorem clearFlags_trace (v : Word) : (s.clearFlags v).trace = s.trace := rfl
@[simp] theorem clearFlags_host (v : Word) : (s.clearFlags v).host = s.host := rfl
@[simp] theorem clearFlags_turns (v : Word) : (s.clearFlags v).turns = s.turns := rfl

@[simp] theorem complete_cfg : (s.complete).cfg = s.cfg := rfl
@[simp] theorem complete_status : (s.complete).status = { s.status with busy := false } := rfl
@[simp] theorem complete_idx : (s.complete).idx = s.idx := rfl
@[simp] theorem complete_idx2 : (s.complete).idx2 = s.idx2 := rfl
@[simp] theorem complete_color : (s.complete).color = s.color := rfl
@[simp] theorem complete_xy : (s.complete).xy = s.xy := rfl
@[simp] theorem complete_result : (s.complete).result = s.result := rfl
@[simp] theorem complete_fg : (s.complete).fg = s.fg := rfl
@[simp] theorem complete_bg : (s.complete).bg = s.bg := rfl
@[simp] theorem complete_latch : (s.complete).latch = s.latch := rfl
@[simp] theorem complete_seq : (s.complete).seq = s.seq := rfl
@[simp] theorem complete_lines : (s.complete).lines = s.lines := rfl
@[simp] theorem complete_trace : (s.complete).trace = s.trace := rfl
@[simp] theorem complete_host : (s.complete).host = s.host := rfl
@[simp] theorem complete_turns : (s.complete).turns = s.turns := rfl

@[simp] theorem emit_cfg (e : WireEvent) : (s.emit e).cfg = s.cfg := rfl
@[simp] theorem emit_status (e : WireEvent) : (s.emit e).status = s.status := rfl
@[simp] theorem emit_idx (e : WireEvent) : (s.emit e).idx = s.idx := rfl
@[simp] theorem emit_idx2 (e : WireEvent) : (s.emit e).idx2 = s.idx2 := rfl
@[simp] theorem emit_color (e : WireEvent) : (s.emit e).color = s.color := rfl
@[simp] theorem emit_xy (e : WireEvent) : (s.emit e).xy = s.xy := rfl
@[simp] theorem emit_result (e : WireEvent) : (s.emit e).result = s.result := rfl
@[simp] theorem emit_fg (e : WireEvent) : (s.emit e).fg = s.fg := rfl
@[simp] theorem emit_bg (e : WireEvent) : (s.emit e).bg = s.bg := rfl
@[simp] theorem emit_latch (e : WireEvent) : (s.emit e).latch = s.latch := rfl
@[simp] theorem emit_seq (e : WireEvent) : (s.emit e).seq = s.seq := rfl
@[simp] theorem emit_lines (e : WireEvent) : (s.emit e).lines = linesAfter s.cfg s.lines e := rfl
@[simp] theorem emit_trace (e : WireEvent) : (s.emit e).trace = s.trace ++ [e] := rfl
@[simp] theorem emit_host (e : WireEvent) : (s.emit e).host = s.host := rfl
@[simp] theorem emit_turns (e : WireEvent) : (s.emit e).turns = s.turns := rfl

@[simp] theorem accept_cfg (v : Word) : (s.accept v).cfg = s.cfg := rfl
@[simp] theorem accept_status (v : Word) : (s.accept v).status = { s.status with busy := true } := rfl
@[simp] theorem accept_idx (v : Word) : (s.accept v).idx = s.idx := rfl
@[simp] theorem accept_idx2 (v : Word) : (s.accept v).idx2 = s.idx2 := rfl
@[simp] theorem accept_color (v : Word) : (s.accept v).color = s.color := rfl
@[simp] theorem accept_xy (v : Word) : (s.accept v).xy = s.xy := rfl
@[simp] theorem accept_result (v : Word) : (s.accept v).result = s.result := rfl
@[simp] theorem accept_fg (v : Word) : (s.accept v).fg = s.fg := rfl
@[simp] theorem accept_bg (v : Word) : (s.accept v).bg = s.bg := rfl
@[simp] theorem accept_latch (v : Word) : (s.accept v).latch = latchOf v s := rfl
@[simp] theorem accept_seq (v : Word) : (s.accept v).seq = none := rfl
@[simp] theorem accept_lines (v : Word) : (s.accept v).lines = s.lines := rfl
@[simp] theorem accept_trace (v : Word) : (s.accept v).trace = s.trace := rfl
@[simp] theorem accept_host (v : Word) : (s.accept v).host = s.host := rfl
@[simp] theorem accept_turns (v : Word) : (s.accept v).turns = s.turns := rfl

@[simp] theorem resetBlock_cfg : (s.resetBlock).cfg = s.cfg := rfl
@[simp] theorem resetBlock_status : (s.resetBlock).status = .atReset := rfl
@[simp] theorem resetBlock_idx : (s.resetBlock).idx = 0 := rfl
@[simp] theorem resetBlock_idx2 : (s.resetBlock).idx2 = 0 := rfl
@[simp] theorem resetBlock_color : (s.resetBlock).color = 0 := rfl
@[simp] theorem resetBlock_xy : (s.resetBlock).xy = 0 := rfl
@[simp] theorem resetBlock_result : (s.resetBlock).result = 0 := rfl
@[simp] theorem resetBlock_fg : (s.resetBlock).fg = [] := rfl
@[simp] theorem resetBlock_bg : (s.resetBlock).bg = [] := rfl
@[simp] theorem resetBlock_latch : (s.resetBlock).latch = .atReset := rfl
@[simp] theorem resetBlock_seq : (s.resetBlock).seq = none := rfl
@[simp] theorem resetBlock_lines : (s.resetBlock).lines = .atReset := rfl
@[simp] theorem resetBlock_trace : (s.resetBlock).trace = s.trace ++ [.reset] := rfl
@[simp] theorem resetBlock_host : (s.resetBlock).host = s.host := rfl
@[simp] theorem resetBlock_turns : (s.resetBlock).turns = s.turns := rfl

@[simp] theorem setBuffer_cfg (b : Buffer) (m : Memory) : (s.setBuffer b m).cfg = s.cfg := by cases b <;> rfl
@[simp] theorem setBuffer_status (b : Buffer) (m : Memory) : (s.setBuffer b m).status = s.status := by cases b <;> rfl
@[simp] theorem setBuffer_idx (b : Buffer) (m : Memory) : (s.setBuffer b m).idx = s.idx := by cases b <;> rfl
@[simp] theorem setBuffer_idx2 (b : Buffer) (m : Memory) : (s.setBuffer b m).idx2 = s.idx2 := by cases b <;> rfl
@[simp] theorem setBuffer_color (b : Buffer) (m : Memory) : (s.setBuffer b m).color = s.color := by cases b <;> rfl
@[simp] theorem setBuffer_xy (b : Buffer) (m : Memory) : (s.setBuffer b m).xy = s.xy := by cases b <;> rfl
@[simp] theorem setBuffer_result (b : Buffer) (m : Memory) : (s.setBuffer b m).result = s.result := by cases b <;> rfl
@[simp] theorem setBuffer_latch (b : Buffer) (m : Memory) : (s.setBuffer b m).latch = s.latch := by cases b <;> rfl
@[simp] theorem setBuffer_seq (b : Buffer) (m : Memory) : (s.setBuffer b m).seq = s.seq := by cases b <;> rfl
@[simp] theorem setBuffer_lines (b : Buffer) (m : Memory) : (s.setBuffer b m).lines = s.lines := by cases b <;> rfl
@[simp] theorem setBuffer_trace (b : Buffer) (m : Memory) : (s.setBuffer b m).trace = s.trace := by cases b <;> rfl
@[simp] theorem setBuffer_host (b : Buffer) (m : Memory) : (s.setBuffer b m).host = s.host := by cases b <;> rfl
@[simp] theorem setBuffer_turns (b : Buffer) (m : Memory) : (s.setBuffer b m).turns = s.turns := by cases b <;> rfl
@[simp] theorem setBuffer_fg_fg (m : Memory) : (s.setBuffer .fg m).fg = m := rfl
@[simp] theorem setBuffer_fg_bg (m : Memory) : (s.setBuffer .fg m).bg = s.bg := rfl
@[simp] theorem setBuffer_bg_fg (m : Memory) : (s.setBuffer .bg m).fg = s.fg := rfl
@[simp] theorem setBuffer_bg_bg (m : Memory) : (s.setBuffer .bg m).bg = m := rfl
@[simp] theorem buffer_fg : s.buffer .fg = s.fg := rfl
@[simp] theorem buffer_bg : s.buffer .bg = s.bg := rfl
@[simp] theorem buffer_setBuffer (b : Buffer) (m : Memory) : (s.setBuffer b m).buffer b = m := by cases b <;> rfl

theorem setBuffer_setBuffer (b : Buffer) (m n : Memory) :
    (s.setBuffer b m).setBuffer b n = s.setBuffer b n := by cases b <;> rfl

theorem setBuffer_self (b : Buffer) : s.setBuffer b (s.buffer b) = s := by cases b <;> rfl

/-! The flags of STATUS. -/

@[simp] theorem Status.set_busy (st : Status) (f : StickyFlag) : (st.set f).busy = st.busy := by cases f <;> rfl

@[simp] theorem Status.clearBy_busy (st : Status) (v : Word) : (st.clearBy v).busy = st.busy := rfl

/-- Raising a flag sets it and leaves every other flag. -/
theorem Status.flag_set (st : Status) (f g : StickyFlag) :
    (st.set f).flag g = if g = f then true else st.flag g := by
  cases f <;> cases g <;> rfl

/-- A STATUS write clears exactly the flags whose bit is 1. -/
theorem Status.flag_clearBy (st : Status) (v : Word) (g : StickyFlag) :
    (st.clearBy v).flag g = (st.flag g && !v.getLsbD g.code) := by
  cases g <;> rfl

theorem Status.set_set (st : Status) (f : StickyFlag) : (st.set f).set f = st.set f := by cases f <;> rfl

theorem Status.clearBy_clearBy (st : Status) (v : Word) :
    (st.clearBy v).clearBy v = st.clearBy v := by
  simp [Status.clearBy]

/-! The host registers. -/

/-- A host register reads what was last written to it, and a write leaves the others. -/
theorem HostRegs.get_set (r : HostRegs) (h g : HReg) (v : Word) :
    (r.set h v).get g = if g = h then v else r.get g := by
  cases h <;> cases g <;> rfl

end Sys2Proof.Machine
end

