-- ==== Sys2Proof/Laws/Bus.lean ====
section
/-! SUPPORT. What one bus access can do (20_memory.md R43), said once: it raises BUSERR, or is an access to one
register, or to one window cell. -/

namespace Sys2Proof.Machine

/-- First offset of a buffer's window (20_memory.md R46). -/
def Buffer.base : Buffer → Nat
  | .fg => 0x01000000
  | .bg => 0x02000000

/-- `a[1:0] = 0` says that the offset is a multiple of 4. -/
theorem aligned_iff (a : Word) : a.extractLsb' 0 2 = 0 ↔ a.toNat % 4 = 0 := by
  rw [← BitVec.toNat_inj]
  simp

/-- The word offset of a register finds it. -/
theorem regAtWord_offset (r : RegName) : regAtWord (r.offset.toNat / 4) = some r := by
  cases r <;> rfl

/-- A word offset that finds a register is that register's. -/
theorem eq_offset_of_regAtWord {a : Word} {r : RegName} (h : regAtWord (a.toNat / 4) = some r)
    (ha : a.toNat % 4 = 0) : a = r.offset := by
  apply BitVec.eq_of_toNat_eq
  unfold regAtWord at h
  split at h <;> cases h <;> simp [RegName.offset] <;> omega

/-- From word offset 12 on there is no register. -/
theorem regAtWord_eq_none {k : Nat} (h : 12 ≤ k) : regAtWord k = none := by
  unfold regAtWord
  split <;> first | omega | rfl

/-- Below word offset 12 there is a register. -/
theorem le_of_regAtWord_eq_none {k : Nat} (h : regAtWord k = none) : 12 ≤ k := by
  by_contra hk
  interval_cases k <;> simp [regAtWord] at h

theorem access_buserr {s : State} {t : Access} (h : t.size ≠ 4 ∨ t.addr.extractLsb' 0 2 ≠ 0) :
    s.access t = (s.raise .buserr, 0) := by
  rw [State.access, if_pos h]

/-- A word access at a register's offset is an access to that register. -/
theorem access_reg (s : State) (r : RegName) (k : AccessKind) (v : Word) :
    s.access ⟨k, r.offset, 4, v⟩ = s.regAccess r k v := by
  have hal : r.offset.extractLsb' 0 2 = 0 := by cases r <;> rfl
  rw [State.access, if_neg (by simp [hal]), regAtWord_offset]

/-- A word access at a mapped window cell's offset is an access to that cell. -/
theorem access_window (s : State) (b : Buffer) {t : Access} {i : Nat} (hs : t.size = 4)
    (hb : b = .bg → s.cfg.hasBg = true) (hi : i < 2 ^ 22) (ha : t.addr.toNat = b.base + 4 * i) :
    s.access t = s.winAccess b t.kind i t.data := by
  have hal : t.addr.extractLsb' 0 2 = 0 := by
    rw [aligned_iff, ha]; cases b <;> simp only [Buffer.base] <;> omega
  rw [State.access, if_neg (by simp [hs, hal]), regAtWord_eq_none (by cases b <;> simp only [Buffer.base] at ha <;> omega)]
  cases b with
  | fg =>
    simp only [Buffer.base] at ha
    rw [if_pos (by omega), show (t.addr.toNat - 0x01000000) / 4 = i by omega]
  | bg =>
    simp only [Buffer.base] at ha
    rw [if_neg (by omega), if_pos ⟨hb rfl, by omega, by omega⟩,
      show (t.addr.toNat - 0x02000000) / 4 = i by omega]

/-- An aligned word access outside every mapped region raises BUSERR. -/
theorem access_unmapped {s : State} {t : Access} (h1 : 0x30 ≤ t.addr.toNat)
    (h2 : t.addr.toNat < 0x01000000 ∨ 0x02000000 ≤ t.addr.toNat)
    (h3 : s.cfg.hasBg = true → t.addr.toNat < 0x02000000 ∨ 0x03000000 ≤ t.addr.toNat) :
    s.access t = (s.raise .buserr, 0) := by
  rw [State.access]
  split
  · rfl
  · rw [regAtWord_eq_none (by omega)]
    simp only
    rw [if_neg (by omega), if_neg]
    rintro ⟨hb, hlo, hhi⟩
    have := h3 hb
    omega

/-- What an access can be. Whether it is one that raises BUSERR is a matter of the configuration alone. -/
theorem access_cases (s : State) (t : Access) :
    (∀ u : State, u.cfg = s.cfg → u.access t = (u.raise .buserr, 0)) ∨
    (∃ r, t.size = 4 ∧ t.addr = r.offset ∧ s.access t = s.regAccess r t.kind t.data) ∨
    (∃ (b : Buffer) (i : Nat), t.size = 4 ∧ t.addr.toNat = b.base + 4 * i ∧ i < 2 ^ 22 ∧
      (b = .bg → s.cfg.hasBg = true) ∧ s.access t = s.winAccess b t.kind i t.data) := by
  by_cases hbad : t.size ≠ 4 ∨ t.addr.extractLsb' 0 2 ≠ 0
  · exact .inl fun _ _ => access_buserr hbad
  · obtain ⟨hs, hal⟩ := not_or.mp hbad
    rw [not_not] at hs hal
    have hmod := (aligned_iff _).mp hal
    cases hr : regAtWord (t.addr.toNat / 4) with
    | some r =>
      refine .inr (.inl ⟨r, hs, eq_offset_of_regAtWord hr hmod, ?_⟩)
      rw [State.access, if_neg hbad, hr]
    | none =>
      have h12 := le_of_regAtWord_eq_none hr
      by_cases hf : 0x01000000 ≤ t.addr.toNat ∧ t.addr.toNat ≤ 0x01FFFFFC
      · have ha : t.addr.toNat = Buffer.fg.base + 4 * ((t.addr.toNat - 0x01000000) / 4) := by
          simp only [Buffer.base]; omega
        exact .inr (.inr ⟨.fg, _, hs, ha, by omega, by simp,
          access_window s .fg hs (by simp) (by omega) ha⟩)
      · by_cases hb : s.cfg.hasBg = true ∧ 0x02000000 ≤ t.addr.toNat ∧ t.addr.toNat ≤ 0x02FFFFFC
        · have ha : t.addr.toNat = Buffer.bg.base + 4 * ((t.addr.toNat - 0x02000000) / 4) := by
            simp only [Buffer.base]; omega
          exact .inr (.inr ⟨.bg, _, hs, ha, by omega, fun _ => hb.1,
            access_window s .bg hs (fun _ => hb.1) (by omega) ha⟩)
        · refine .inl fun u hu => access_unmapped (by omega) (by omega) fun h => ?_
          by_contra hc
          exact hb ⟨hu ▸ h, by omega, by omega⟩

/-- What a window access can be. -/
theorem winAccess_cases (s : State) (b : Buffer) (k : AccessKind) (i : Nat) (v : Word) :
    (s.status.busy = true ∧ s.winAccess b k i v = (s.raise .coll, 0)) ∨
    (s.status.busy = false ∧ k = .read ∧ (s.winAccess b k i v).1 = s) ∨
    (s.status.busy = false ∧ k = .write ∧ s.winAccess b k i v = (s.writePixel b i (wordColor v), 0)) := by
  unfold State.winAccess
  cases s.status.busy <;> cases k <;> simp

/-- What a CMD write can do (30_encoding.md R66). -/
theorem cmdWrite_cases (s : State) (v : Word) :
    (s.status.busy = true ∧ s.cmdWrite v = s.raise .ovf) ∨
    (s.status.busy = false ∧ legalInstr s.cfg v = none ∧ s.cmdWrite v = s.raise .ill) ∨
    (s.status.busy = false ∧ (∃ i, legalInstr s.cfg v = some i) ∧ s.cmdWrite v = s.accept v) := by
  unfold State.cmdWrite
  cases s.status.busy <;> cases legalInstr s.cfg v <;> simp

/-- The state after an access: what it can be, from the state before. -/
theorem access_state_cases (s : State) (t : Access) :
    (∃ f, (f = .buserr ∨ (f = .coll ∧ s.status.busy = true) ∨ (f = .ovf ∧ s.status.busy = true) ∨
        (f = .ill ∧ s.status.busy = false)) ∧ (s.access t).1 = s.raise f) ∨
    (s.access t).1 = s ∨
    (t.kind = .write ∧ t.size = 4 ∧ (
      (t.addr = 0x000 ∧ s.status.busy = false ∧ (∃ i, legalInstr s.cfg t.data = some i) ∧
        (s.access t).1 = s.accept t.data) ∨
      (t.addr = 0x004 ∧ (s.access t).1 = s.clearFlags t.data) ∨
      (s.access t).1 = { s with idx := t.data } ∨ (s.access t).1 = { s with idx2 := t.data } ∨
      (s.access t).1 = { s with color := wordColor t.data } ∨ (s.access t).1 = { s with xy := t.data } ∨
      (∃ (b : Buffer) (i : Nat), t.addr.toNat = b.base + 4 * i ∧ i < 2 ^ 22 ∧
        (b = .bg → s.cfg.hasBg = true) ∧ s.status.busy = false ∧
        (s.access t).1 = s.writePixel b i (wordColor t.data)))) := by
  obtain h | ⟨r, hs, ha, h⟩ | ⟨b, i, hs, ha, hi, hb, h⟩ := access_cases s t
  · exact .inl ⟨.buserr, .inl rfl, by rw [h s rfl]⟩
  · obtain ⟨k, a, n, v⟩ := t
    simp only at hs ha h ⊢
    rw [h]
    cases k with
    | read => exact .inr (.inl rfl)
    | write =>
      cases r with
      | cmd =>
        obtain ⟨hb, hc⟩ | ⟨hb, hl, hc⟩ | ⟨hb, hl, hc⟩ := cmdWrite_cases s v
        · exact .inl ⟨.ovf, .inr (.inr (.inl ⟨rfl, hb⟩)), hc⟩
        · exact .inl ⟨.ill, .inr (.inr (.inr ⟨rfl, hb⟩)), hc⟩
        · exact .inr (.inr ⟨rfl, hs, .inl ⟨ha, hb, hl, hc⟩⟩)
      | status => exact .inr (.inr ⟨rfl, hs, .inr (.inl ⟨ha, rfl⟩)⟩)
      | idx => exact .inr (.inr ⟨rfl, hs, .inr (.inr (.inl rfl))⟩)
      | idx2 => exact .inr (.inr ⟨rfl, hs, .inr (.inr (.inr (.inl rfl)))⟩)
      | color => exact .inr (.inr ⟨rfl, hs, .inr (.inr (.inr (.inr (.inl rfl))))⟩)
      | xy => exact .inr (.inr ⟨rfl, hs, .inr (.inr (.inr (.inr (.inr (.inl rfl)))))⟩)
      | result | cfg | geom | npix | clkdiv | settle => exact .inr (.inl rfl)
  · rw [h]
    obtain ⟨hbusy, hw⟩ | ⟨hbusy, hk, hw⟩ | ⟨hbusy, hk, hw⟩ := winAccess_cases s b t.kind i t.data
    · exact .inl ⟨.coll, .inr (.inl ⟨rfl, hbusy⟩), by rw [hw]⟩
    · exact .inr (.inl hw)
    · exact .inr (.inr ⟨hk, hs, .inr (.inr (.inr (.inr (.inr (.inr
        ⟨b, i, ha, hi, hb, hbusy, by rw [hw]⟩)))))⟩)

end Sys2Proof.Machine
end

