-- ==== Sys2Proof/Laws/Ops.lean ====
section
/-! SUPPORT. One lemma per shared operation: the pixel write, the clears, the range write, the encoding of the latch. -/

namespace Sys2Proof.Machine

/-- A pixel write below N writes the cell (40_buffer_grid.md R86). -/
theorem writePixel_of_lt {s : State} {b : Buffer} {i : Nat} (c : Color) (h : i < s.cfg.n) :
    s.writePixel b i c = s.setBuffer b (Memory.write i c (s.buffer b)) := by
  rw [State.writePixel, if_pos h]

/-- A pixel write from N on is dropped (40_buffer_grid.md R86). -/
theorem writePixel_of_le {s : State} {b : Buffer} {i : Nat} (c : Color) (h : s.cfg.n ≤ i) :
    s.writePixel b i c = s.raise .drop := by
  rw [State.writePixel, if_neg (by omega)]

/-- What a pixel write can do. -/
theorem writePixel_cases (s : State) (b : Buffer) (i : Nat) (c : Color) :
    (i < s.cfg.n ∧ s.writePixel b i c = s.setBuffer b (Memory.write i c (s.buffer b))) ∨
    (s.cfg.n ≤ i ∧ s.writePixel b i c = s.raise .drop) := by
  rcases Nat.lt_or_ge i s.cfg.n with h | h
  · exact .inl ⟨h, writePixel_of_lt c h⟩
  · exact .inr ⟨h, writePixel_of_le c h⟩

/-- Nothing differs but the buffer and STATUS after a pixel write. -/
theorem writePixel_frame (s : State) (b : Buffer) (i : Nat) (c : Color) :
    ∃ m st, st.busy = s.status.busy ∧ s.writePixel b i c = ({ s with status := st } : State).setBuffer b m := by
  obtain ⟨-, h⟩ | ⟨-, h⟩ := writePixel_cases s b i c
  · exact ⟨_, s.status, rfl, h⟩
  · refine ⟨s.buffer b, s.status.set .drop, Status.set_busy _ _, ?_⟩
    rw [h]; cases b <;> rfl

/-- Nothing differs but the foreground and STATUS after a range write. -/
theorem writeRange_frame (s : State) (i j : Nat) (c : Color) :
    ∃ m st, st.busy = s.status.busy ∧ s.writeRange i j c = { s with fg := m, status := st } := by
  unfold State.writeRange
  split
  · exact ⟨_, s.status.set .drop, Status.set_busy _ _, rfl⟩
  · exact ⟨_, s.status, rfl, rfl⟩

/-- The foreground after a range write. -/
theorem writeRange_fg (s : State) (i j : Nat) (c : Color) :
    (s.writeRange i j c).fg = Memory.fill i c (min (j + 1) s.cfg.n - i) s.fg := by
  unfold State.writeRange
  split <;> rfl

/-- STATUS after a range write: DROP is raised exactly when the range leaves the buffer. -/
theorem writeRange_status (s : State) (i j : Nat) (c : Color) :
    (s.writeRange i j c).status = if s.cfg.n ≤ j then s.status.set .drop else s.status := by
  unfold State.writeRange
  split <;> rfl

/-- A command word with its reserved bits 0 is its OP and A. -/
theorem word_of_fields {v : Word} (h : cmdRsv v = 0) : 0#23 ++ BitVec.ofBool (cmdA v) ++ cmdOp v = v := by
  apply BitVec.eq_of_getLsbD_eq
  intro k hk
  rw [BitVec.getLsbD_append, BitVec.getLsbD_append]
  have hz : 9 ≤ k → v.getLsbD k = false := fun h9 => by
    have := congrArg (fun x : BitVec 23 => x.getLsbD (k - 9)) h
    simp only [cmdRsv, BitVec.getLsbD_extractLsb', show 9 + (k - 9) = k by omega] at this
    simpa [show k - 9 < 23 by omega] using this
  by_cases h8 : k < 8
  · simp [h8, cmdOp]
  · by_cases h9 : k = 8
    · subst h9; simp [cmdA]
    · rw [hz (by omega)]
      simp [h8, show ¬ k - 8 < 1 by omega]

/-- A word that decodes has its reserved bits 0. -/
theorem cmdRsv_of_decode {v : Word} {i : Instr} (h : decode v = .ok i) : cmdRsv v = 0 := by
  unfold decode at h
  split at h
  · cases h
  · rename_i hr; simpa using hr

/-- A legal word decodes to the command, which is legal in the configuration. -/
theorem legalInstr_eq_some {c : Config} {v : Word} {i : Instr} :
    legalInstr c v = some i ↔ decode v = .ok i ∧ i.wellFormed c = true := by
  unfold legalInstr
  cases decode v with
  | error e => simp
  | ok j =>
    simp only [Except.ok.injEq]
    constructor
    · intro h
      split at h
      · cases h; exact ⟨rfl, ‹_›⟩
      · cases h
    · rintro ⟨rfl, h⟩
      rw [if_pos h]

/-- What acceptance latches is the word accepted: the Engine will hold that command. -/
theorem heldInstr_accept {s : State} {v : Word} {i : Instr} (h : legalInstr s.cfg v = some i) :
    (s.accept v).heldInstr = some i := by
  have hr := cmdRsv_of_decode (legalInstr_eq_some.mp h).1
  simpa [State.heldInstr, Latch.word, latchOf, word_of_fields hr] using h

end Sys2Proof.Machine
end

