-- ==== Sys2Proof/Laws/PerInstr.lean ====
section
/-! SUPPORT. What holds of every command, said once per command. -/

namespace Sys2Proof.Laws

namespace CommandWordFields

/-- The fields of a command's word (30_encoding.md R63): RSV is 0, OP is below `0x07`, and A is 1 in
SETPIXXY's word alone. -/
def Statement (i : Instr) : Prop :=
  cmdRsv (encode i) = 0 ∧ (cmdOp (encode i)).toNat < 7 ∧ (cmdA (encode i) = true ↔ i = .setpixxy)

theorem nop : Statement .nop := by unfold Statement; decide

theorem setpix : Statement .setpix := by unfold Statement; decide

theorem setpixxy : Statement .setpixxy := by unfold Statement; decide

theorem translate : Statement .translate := by unfold Statement; decide

theorem clear : Statement .clear := by unfold Statement; decide

theorem clearbg : Statement .clearbg := by unfold Statement; decide

theorem setrange : Statement .setrange := by unfold Statement; decide

theorem transmit : Statement .transmit := by unfold Statement; decide

end CommandWordFields

end Sys2Proof.Laws
end

