-- ==== Sys2Proof/Laws/Wire.lean ====
section
/-! SUPPORT. The frame's bits and events (45_transmit.md R96, R98), and the lines after a list of events. -/

namespace Sys2Proof.Machine

@[simp] theorem length_colorBits (v : Color) : (colorBits v).length = 24 := by simp [colorBits]

/-- A frame carries `24*N` bits (45_transmit.md R96). -/
@[simp] theorem length_frameBits (c : Config) (fg bg : Memory) : (frameBits c fg bg).length = 24 * c.n := by
  simp [frameBits, List.length_flatMap, Nat.mul_comm]

/-- A frame has at most two events more than bits (45_transmit.md R98). -/
theorem length_frameEvents_le (c : Config) (fg bg : Memory) :
    (frameEvents c fg bg).length ≤ 24 * c.n + 2 := by
  unfold frameEvents
  split <;> simp

/-- A block of at least one pixel sends at least one event. -/
theorem frameEvents_ne_nil {c : Config} (fg bg : Memory) (h : c.n ≠ 0) : frameEvents c fg bg ≠ [] := by
  have hl := length_frameBits c fg bg
  unfold frameEvents
  split
  · simp
  · simp
  · intro h0
    rw [List.map_eq_nil_iff] at h0
    rw [h0] at hl
    simp at hl
    omega

/-- A configuration in range has at least one pixel (00_scope.md R8). -/
theorem n_ne_zero {c : Config} (h : c.wellFormed = true) : c.n ≠ 0 := by
  simp only [Config.wellFormed, Bool.and_eq_true, decide_eq_true_eq] at h
  unfold Config.n
  have : 0 < c.width * c.height := Nat.mul_pos (by omega) (by omega)
  omega

/-- Data bits leave FRM alone. -/
theorem frm_foldl_bits (c : Config) (bits : List Bool) (l : Lines) :
    ((bits.map WireEvent.bit).foldl (linesAfter c) l).frm = l.frm := by
  induction bits generalizing l with
  | nil => rfl
  | cons b bs ih => simpa [linesAfter] using ih _

/-- Data bits leave CLK low in PERIPH mode (45_transmit.md R97). -/
theorem clk_foldl_bits {c : Config} (h : c.mode = .periph) (bits : List Bool) {l : Lines}
    (hl : l.clk = false) : ((bits.map WireEvent.bit).foldl (linesAfter c) l).clk = false := by
  induction bits generalizing l with
  | nil => exact hl
  | cons b bs ih => exact ih (by simp [linesAfter, h])

/-- After a whole frame CLK and FRM are at their idle levels again (10_state.md R39). -/
theorem idle_after_frame (c : Config) (fg bg : Memory) (d : Bool) :
    ((frameEvents c fg bg).foldl (linesAfter c) { clk := false, dat := d, frm := true }).clk = false ∧
    ((frameEvents c fg bg).foldl (linesAfter c) { clk := false, dat := d, frm := true }).frm = true := by
  unfold frameEvents
  split
  · simp [linesAfter, frm_foldl_bits]
  · rename_i hm hf
    simp [linesAfter, clk_foldl_bits hm]
  · rename_i hm hf
    exact ⟨clk_foldl_bits hm _ rfl, frm_foldl_bits c _ _⟩

/-- An event of a frame that does not drive FRM leaves it alone (10_state.md R39). -/
theorem frm_of_unframed {c : Config} (h : c.framed = false) (fg bg : Memory) {e : WireEvent}
    (he : e ∈ frameEvents c fg bg) (l : Lines) : (linesAfter c l e).frm = l.frm := by
  have hbit : ∀ e' ∈ (frameBits c fg bg).map WireEvent.bit, (linesAfter c l e').frm = l.frm := by
    intro e' he'
    obtain ⟨b, -, rfl⟩ := List.mem_map.mp he'
    rfl
  unfold frameEvents at he
  split at he
  · simp only [List.mem_append, List.mem_singleton] at he
    obtain (rfl | he) | rfl := he
    · rfl
    · exact hbit e he
    · rfl
  · rename_i hm hf
    simp [Config.framed, hm, hf] at h
  · exact hbit e he

end Sys2Proof.Machine
end

