-- ==== Sys2Proof/Laws/Step.lean ====
section
/-! SUPPORT. What one step can do, said once: whose turn it is, and what each agent's step leaves alone. -/

namespace Sys2Proof.Machine

/-- Taking a turn touches nothing but the list of turns. -/
theorem takeTurn_state (s : State) : s.takeTurn.2 = { s with turns := s.takeTurn.2.turns } := by
  unfold State.takeTurn
  split <;> rfl

@[simp] theorem takeTurn_cfg (s : State) : s.takeTurn.2.cfg = s.cfg := by rw [takeTurn_state]
@[simp] theorem takeTurn_status (s : State) : s.takeTurn.2.status = s.status := by rw [takeTurn_state]
@[simp] theorem takeTurn_fg (s : State) : s.takeTurn.2.fg = s.fg := by rw [takeTurn_state]
@[simp] theorem takeTurn_bg (s : State) : s.takeTurn.2.bg = s.bg := by rw [takeTurn_state]
@[simp] theorem takeTurn_result (s : State) : s.takeTurn.2.result = s.result := by rw [takeTurn_state]
@[simp] theorem takeTurn_latch (s : State) : s.takeTurn.2.latch = s.latch := by rw [takeTurn_state]
@[simp] theorem takeTurn_seq (s : State) : s.takeTurn.2.seq = s.seq := by rw [takeTurn_state]
@[simp] theorem takeTurn_lines (s : State) : s.takeTurn.2.lines = s.lines := by rw [takeTurn_state]
@[simp] theorem takeTurn_trace (s : State) : s.takeTurn.2.trace = s.trace := by rw [takeTurn_state]
@[simp] theorem takeTurn_host (s : State) : s.takeTurn.2.host = s.host := by rw [takeTurn_state]
@[simp] theorem takeTurn_heldInstr (s : State) : s.takeTurn.2.heldInstr = s.heldInstr := by
  simp [State.heldInstr]

/-- What an Engine step that answers a next state can be (30_encoding.md R67). -/
theorem engineStep_cases {s t : State} (h : engineStep s = .next t) :
    (s.status.busy = false ∧ t = s) ∨
    (s.status.busy = true ∧ ∃ i, s.heldInstr = some i ∧ exec i s = .next t) := by
  unfold engineStep at h
  cases hb : s.status.busy with
  | false =>
    rw [hb] at h
    cases h
    exact .inl ⟨rfl, rfl⟩
  | true =>
    rw [hb, if_pos rfl] at h
    cases hi : s.heldInstr with
    | none => rw [hi] at h; cases h
    | some i => rw [hi] at h; exact .inr ⟨rfl, i, rfl, h⟩

/-- What a step that answers a next state can be (00_scope.md R18). -/
theorem step_cases {s t : State} (h : step s = .next t) : s.cfg.wellFormed = true ∧
    ((s.takeTurn.1 = .host ∧ t = s.takeTurn.2.hostStep) ∨
     (s.takeTurn.1 = .engine ∧ s.status.busy = false ∧ t = s.takeTurn.2) ∨
     (s.takeTurn.1 = .engine ∧ s.status.busy = true ∧
       ∃ i, s.heldInstr = some i ∧ exec i s.takeTurn.2 = .next t) ∨
     (s.takeTurn.1 = .reset ∧ t = s.takeTurn.2.resetBlock)) := by
  unfold step at h
  split at h
  · refine ⟨‹_›, ?_⟩
    cases ht : s.takeTurn.1 with
    | host => rw [ht] at h; cases h; exact .inl ⟨rfl, rfl⟩
    | engine =>
      rw [ht] at h
      obtain ⟨hb, rfl⟩ | ⟨hb, i, hi, he⟩ := engineStep_cases h
      · exact .inr (.inl ⟨rfl, by simpa using hb, rfl⟩)
      · exact .inr (.inr (.inl ⟨rfl, by simpa using hb, i, by simpa using hi, he⟩))
    | reset => rw [ht] at h; cases h; exact .inr (.inr (.inr ⟨rfl, rfl⟩))
  · cases h

/-- What a Host step can be (30_encoding.md R70, R71): an access and a move of the Host, or a move alone. -/
theorem hostStep_cases (s : State) :
    (∃ x, s.hostStep = { s with host := x }) ∨
    (∃ p n e x, s.host.prog[s.host.pc]? = some (.write p n e) ∧
      s.hostStep = { (s.access ⟨.write, p.offsetIn s.host.regs, n, e.eval s.host.regs⟩).1 with host := x }) ∨
    (∃ h p n x, s.host.prog[s.host.pc]? = some (.read h p n) ∧
      s.hostStep = { (s.access ⟨.read, p.offsetIn s.host.regs, n, 0⟩).1 with host := x }) := by
  unfold State.hostStep
  cases ho : s.host.prog[s.host.pc]? with
  | none => exact .inl ⟨s.host, rfl⟩
  | some o =>
    cases o with
    | write p n e => exact .inr (.inl ⟨p, n, e, _, rfl, rfl⟩)
    | read h p n => exact .inr (.inr ⟨h, p, n, _, rfl, rfl⟩)
    | halt => exact .inl ⟨s.host, rfl⟩
    | mov | add | sub | and | bnz | bltu | jump => exact .inl ⟨_, rfl⟩

/-- What the step of TRANSMIT does when events are pending (45_transmit.md R99). -/
theorem execTransmit_of_pending {s : State} {e : WireEvent} {es : List WireEvent}
    (h : s.pendingEvents = e :: es) : exec .transmit s = .next (s.emitThen e es) := by
  show execTransmit s = _
  rw [execTransmit, h]

/-- The fields of the state after an event of TRANSMIT. -/
theorem emitThen_eq (s : State) (e : WireEvent) (es : List WireEvent) :
    s.emitThen e es = { s with
      trace := s.trace ++ [e], lines := linesAfter s.cfg s.lines e
      seq := if es = [] then none else some es
      status := { s.status with busy := if es = [] then false else s.status.busy } } := by
  cases es <;> rfl

/-- What TRANSMIT can do: only the wire, the sequencer and BUSY change. -/
theorem execTransmit_cases {s t : State} (h : exec .transmit s = .next t) :
    ∃ e es, s.pendingEvents = e :: es ∧ t = s.emitThen e es := by
  change execTransmit s = _ at h
  unfold execTransmit at h
  split at h
  · cases h
  · cases h; exact ⟨_, _, ‹_›, rfl⟩

/-- What a command other than TRANSMIT can do: it completes, and only a buffer, RESULT and the flags of
STATUS can differ (40_buffer_grid.md R87 to R93). -/
theorem exec_of_ne_transmit (s : State) {i : Instr} (hi : i ≠ .transmit) :
    ∃ fg bg r st, exec i s = .next { s with fg := fg, bg := bg, result := r, status := st } ∧
      st.busy = false ∧ (∀ f, f ≠ .drop → st.flag f = s.status.flag f) ∧
      (s.status.drop = true → st.drop = true) ∧
      (r ≠ s.result → i = .translate) ∧ (bg ≠ s.bg → i = .clearbg) ∧
      (fg ≠ s.fg → i ∈ [.setpix, .setpixxy, .clear, .setrange]) := by
  have drop_flag : ∀ f : StickyFlag, f ≠ .drop → (s.status.set .drop).flag f = s.status.flag f := by
    intro f hf; rw [Status.flag_set, if_neg hf]
  have pixel : ∀ (k : Nat), ∃ fg st,
      (s.writePixel .fg k s.latch.color).complete = { s with fg := fg, status := st } ∧ st.busy = false ∧
      (∀ f, f ≠ .drop → st.flag f = s.status.flag f) ∧ (s.status.drop = true → st.drop = true) := by
    intro k
    obtain ⟨-, h⟩ | ⟨-, h⟩ := writePixel_cases s .fg k s.latch.color
    · exact ⟨Memory.write k s.latch.color s.fg, { s.status with busy := false }, by rw [h]; rfl, rfl,
        fun f _ => by cases f <;> rfl, id⟩
    · exact ⟨s.fg, { s.status.set .drop with busy := false }, by rw [h]; rfl, rfl,
        fun f hf => by cases f <;> first | rfl | exact absurd rfl hf, fun _ => rfl⟩
  cases i with
  | nop =>
    exact ⟨s.fg, s.bg, s.result, _, rfl, rfl, fun f _ => by cases f <;> rfl, id, fun h => absurd rfl h,
      fun h => absurd rfl h, fun h => absurd rfl h⟩
  | setpix =>
    obtain ⟨fg, st, h, h1, h2, h3⟩ := pixel s.latch.idx.toNat
    exact ⟨fg, s.bg, s.result, st, congrArg _ h, h1, h2, h3, fun h => absurd rfl h,
      fun h => absurd rfl h, fun _ => by simp⟩
  | setpixxy =>
    obtain ⟨fg, st, h, h1, h2, h3⟩ := pixel (translateXY s.cfg s.latch.x s.latch.y).toNat
    exact ⟨fg, s.bg, s.result, st, congrArg _ h, h1, h2, h3, fun h => absurd rfl h,
      fun h => absurd rfl h, fun _ => by simp⟩
  | translate =>
    exact ⟨s.fg, s.bg, _, _, rfl, rfl, fun f _ => by cases f <;> rfl, id, fun _ => rfl,
      fun h => absurd rfl h, fun h => absurd rfl h⟩
  | clear =>
    exact ⟨_, s.bg, s.result, _, rfl, rfl, fun f _ => by cases f <;> rfl, id, fun h => absurd rfl h,
      fun h => absurd rfl h, fun _ => by simp⟩
  | clearbg =>
    exact ⟨s.fg, _, s.result, _, rfl, rfl, fun f _ => by cases f <;> rfl, id, fun h => absurd rfl h,
      fun _ => rfl, fun h => absurd rfl h⟩
  | setrange =>
    change ∃ fg bg r st, execSetrange s = _ ∧ _
    unfold execSetrange State.writeRange
    split
    · split
      · exact ⟨_, s.bg, s.result, _, rfl, rfl,
          fun f hf => by cases f <;> first | rfl | exact absurd rfl hf, fun _ => rfl,
          fun h => absurd rfl h, fun h => absurd rfl h, fun _ => by simp⟩
      · exact ⟨_, s.bg, s.result, _, rfl, rfl, fun f _ => by cases f <;> rfl, id,
          fun h => absurd rfl h, fun h => absurd rfl h, fun _ => by simp⟩
    · exact ⟨s.fg, s.bg, s.result, _, rfl, rfl, fun f _ => by cases f <;> rfl, id,
        fun h => absurd rfl h, fun h => absurd rfl h, fun h => absurd rfl h⟩
  | transmit => exact absurd rfl hi

end Sys2Proof.Machine
end

