-- ==== Sys2Proof/Tests/Slice0.lean ====
section
/-! SUPPORT. The model's own tests. Expected results come from spec/95_test_vectors.md (the vector's id stands in the
docstring) or are worked out by hand from the rule named. Each `witness_<Name>` shows concrete values that
meet every hypothesis of `Obligations.<Name>` together. -/

namespace Sys2Proof.Tests

open Sys2Proof.Machine Host

/-! ## Helpers -/

/-- The vectors' panel: 3x3, PERIPH, no clamp, no background, no framing (95_test_vectors.md, conventions). -/
def panel : Config := { Config.sample with hasBg := false, frame := false }

/-- One pixel, manually clocked. -/
def dot : Config := { Config.sample with width := 1, height := 1, mode := .manual }

/-- A block at power-on, changed by `f`. -/
def start (c : Config) (f : State → State := id) : State := f (State.powerOn c)

/-- `s` with the command `i` just accepted. -/
def holding (i : Instr) (s : State) : State := s.accept (encode i)

/-- `s` with a Host whose next operation is `o`. -/
def running (o : HostOp Nat) (s : State) : State := s.loadProgram [o]

/-- A field of the next state. -/
def after {α : Type} (f : State → α) : Outcome State Fault Refusal → Option α
  | .next t => some (f t)
  | .fault _ => none
  | .refused _ => none

/-- What an access answers, and the fields `f` of the state after it. -/
def answer {α : Type} (f : State → α) (r : State × Word) : α × Word := (f r.1, r.2)

/-- STATUS as a number. -/
def stat (s : State) : Nat := s.status.toWord.toNat

/-! ## Well-formedness: each check refuses a term that breaks it alone (00_scope.md R8, R14, R69) -/

theorem test_sample_wellFormed : Config.sample.wellFormed = true := by decide

theorem test_width_low : ({ Config.sample with width := 0 } : Config).wellFormed = false := by decide
theorem test_width_high : ({ Config.sample with width := 65536, height := 1 } : Config).wellFormed = false := by
  decide
theorem test_height_low : ({ Config.sample with height := 0 } : Config).wellFormed = false := by decide
theorem test_height_high : ({ Config.sample with height := 65536, width := 1 } : Config).wellFormed = false := by
  decide
theorem test_count_high :
    ({ Config.sample with width := 65535, height := 65 } : Config).wellFormed = false := by decide
theorem test_clkdiv_low : ({ Config.sample with clkdiv := 0 } : Config).wellFormed = false := by decide
theorem test_clkdiv_high : ({ Config.sample with clkdiv := 65536 } : Config).wellFormed = false := by decide
theorem test_settle_low : ({ Config.sample with settle := 0 } : Config).wellFormed = false := by decide
theorem test_settle_high : ({ Config.sample with settle := 2 ^ 32 } : Config).wellFormed = false := by decide
theorem test_byteGap_high : ({ Config.sample with byteGap := 2 ^ 32 } : Config).wellFormed = false := by decide
theorem test_clearbg_needs_background : Instr.wellFormed panel .clearbg = false := by decide

/-- The corners of the ranges are in range. -/
theorem test_range_corners :
    (Config.mk 65535 64 false .periph false false 65535 (2 ^ 32 - 1) (2 ^ 32 - 1)).wellFormed = true ∧
    (Config.mk 1 1 false .periph false false 1 1 0).wellFormed = true := by decide

/-! ## Decoding: each word written out bit by bit, RSV then A then OP (30_encoding.md R63, R65) -/

theorem test_decode_nop : decode (0b00000000000000000000000#23 ++ 0b0#1 ++ 0b00000000#8) = .ok .nop := by rfl
theorem test_decode_setpix : decode (0b00000000000000000000000#23 ++ 0b0#1 ++ 0b00000001#8) = .ok .setpix := by
  rfl
theorem test_decode_setpixxy :
    decode (0b00000000000000000000000#23 ++ 0b1#1 ++ 0b00000001#8) = .ok .setpixxy := by rfl
theorem test_decode_translate :
    decode (0b00000000000000000000000#23 ++ 0b0#1 ++ 0b00000010#8) = .ok .translate := by rfl
theorem test_decode_clear : decode (0b00000000000000000000000#23 ++ 0b0#1 ++ 0b00000011#8) = .ok .clear := by rfl
theorem test_decode_clearbg :
    decode (0b00000000000000000000000#23 ++ 0b0#1 ++ 0b00000100#8) = .ok .clearbg := by rfl
theorem test_decode_setrange :
    decode (0b00000000000000000000000#23 ++ 0b0#1 ++ 0b00000101#8) = .ok .setrange := by rfl
theorem test_decode_transmit :
    decode (0b00000000000000000000000#23 ++ 0b0#1 ++ 0b00000110#8) = .ok .transmit := by rfl

/-- Q1 to Q4, each refused by name. -/
theorem test_decode_refuses :
    decode 0x00000007 = .error .reservedOpcode ∧ decode 0x00000102 = .error .addressMode ∧
    decode 0x00000201 = .error .reservedBits ∧ decode 0x80000006 = .error .reservedBits := ⟨rfl, rfl, rfl, rfl⟩

/-- 30_encoding.md R65, R62: a row's word as the opcode table numbers it, and a number too long for a word. -/
theorem test_table_word :
    decodeTableWord 32 0x101 = some .setpixxy ∧ decodeTableWord 32 0x102 = none ∧
    decodeTableWord 40 0x1 = none := by decide

/-! ## The commands -/

/-- R87: only BUSY changes. -/
theorem test_nop : after (·) (exec .nop (holding .nop (start panel))) =
    some { holding .nop (start panel) with status := .atReset } := by decide

/-- P1. -/
theorem test_setpix_last_cell :
    after (fun t => (t.fg, stat t)) (exec .setpix (holding .setpix (start panel fun s =>
      { s with idx := 8, color := 0x00FF00 }))) = some ([(8, 0x00FF00)], 0) := by decide

/-- P2: index N is dropped. -/
theorem test_setpix_at_n_drops :
    after (fun t => (t.fg, stat t)) (exec .setpix (holding .setpix (start panel fun s =>
      { s with idx := 9, color := 0x00FF00 }))) = some ([], 2) := by decide

/-- P5: the odd column runs upwards, and RESULT stays. -/
theorem test_setpixxy_odd_column :
    after (fun t => (t.fg, t.result, stat t)) (exec .setpixxy (holding .setpixxy (start panel fun s =>
      { s with xy := packXY 1 0, color := 0xFF0000 }))) = some ([(5, 0xFF0000)], 0, 0) := by decide

/-- P6: (3,0) translates to 11. -/
theorem test_setpixxy_drops :
    after (fun t => (t.fg, stat t)) (exec .setpixxy (holding .setpixxy (start panel fun s =>
      { s with xy := packXY 3 0, color := 0xFF0000 }))) = some ([], 2) := by decide

/-- E1. -/
theorem test_translate_grid :
    [(0, 0), (0, 1), (0, 2), (1, 0), (1, 1), (1, 2), (2, 0), (2, 1), (2, 2)].map
      (fun p => after (·.result) (exec .translate (holding .translate (start panel fun s =>
        { s with xy := packXY p.1 p.2 })))) =
    [some 0, some 1, some 2, some 5, some 4, some 3, some 6, some 7, some 8] := by decide

/-- T4, T7, T8 and T11: the wrap, the largest x, the largest y, and the clamp. -/
theorem test_translate_out_of_range :
    translateXY panel 1 6 = 0xFFFFFFFF ∧ translateXY panel 65535 0 = 0x0002FFFF ∧
    translateXY panel 1 65535 = 0xFFFF0006 ∧ translateXY { panel with clamp := true } 1 5 = 5 := by decide

/-- S9. -/
theorem test_clear_leaves_background :
    after (fun t => (t.fg, t.bg)) (exec .clear (holding .clear (start (Config.sample.strip 3) fun s =>
      { s with fg := [(0, 1), (1, 2), (2, 3)], bg := [(0, 5), (1, 6), (2, 7)] }))) =
    some ([], [(0, 5), (1, 6), (2, 7)]) := by decide

/-- S10. -/
theorem test_clearbg_leaves_foreground :
    after (fun t => (t.fg, t.bg)) (exec .clearbg (holding .clearbg (start (Config.sample.strip 3) fun s =>
      { s with fg := [(0, 1), (1, 2), (2, 3)], bg := [(0, 5), (1, 6), (2, 7)] }))) =
    some ([(0, 1), (1, 2), (2, 3)], []) := by decide

/-- S3: clipped at N - 1, DROP set. -/
theorem test_setrange_clips :
    after (fun t => (t.fg, stat t)) (exec .setrange (holding .setrange (start panel fun s =>
      { s with idx := 7, idx2 := 20, color := 0x0A0B0C }))) = some ([(7, 0x0A0B0C), (8, 0x0A0B0C)], 2) := by
  decide

/-- S7: reversed bounds. -/
theorem test_setrange_reversed :
    after (fun t => (t.fg, stat t)) (exec .setrange (holding .setrange (start panel fun s =>
      { s with idx := 0xFFFFFFFF, idx2 := 0, color := 0x0A0B0C }))) = some ([], 0) := by decide

/-- X1: the frame of one manually clocked pixel `0x800001` opens with `Settle`, and BUSY stays 1. -/
theorem test_transmit_first_event :
    after (fun t => (t.trace, t.seq.map List.length, stat t)) (exec .transmit (holding .transmit (start dot fun s =>
      { s with fg := [(0, 0x800001)] }))) = some ([.settle], some 25, 1) := by decide

/-- X1: the last event, `Settle` after `Bit(1)`; CLK = 0, DAT = 1, FRM = 1, BUSY = 0. -/
theorem test_transmit_last_event :
    after (fun t => (t.trace, t.seq, t.lines, stat t)) (exec .transmit { holding .transmit (start dot) with
      seq := some [.settle], trace := [.bit true], lines := { clk := true, dat := true, frm := true } }) =
    some ([.bit true, .settle], none, { clk := false, dat := true, frm := true }, 0) := by decide

/-- X1, X2, X3: the whole event lists. -/
theorem test_frame_events :
    let bits := [WireEvent.bit true] ++ List.replicate 22 (.bit false) ++ [.bit true]
    frameEvents dot [(0, 0x800001)] [] = [.settle] ++ bits ++ [.settle] ∧
    frameEvents { dot with mode := .periph } [(0, 0x800001)] [] = [.frmLow] ++ bits ++ [.frmHigh] ∧
    frameEvents { dot with mode := .periph, frame := false } [(0, 0x800001)] [] = bits := by decide

/-- X5: compositing. -/
theorem test_composite :
    (List.range 3).map (txValue (Config.sample.strip 3) [(1, 0x010203)] [(0, 0x0000FF), (1, 0xFFFFFF)]) =
    [0x0000FF, 0x010203, 0] := by decide

/-- The timing example of 95_test_vectors.md 2.4, both modes. -/
theorem test_cycles :
    cycles (waveform { panel with width := 4, height := 1, mode := .manual, clkdiv := 2, settle := 100 } 0 0 0
      (frameEvents { panel with width := 4, height := 1, mode := .manual } [] [])) = 584 ∧
    cycles (waveform { panel with width := 4, height := 1, clkdiv := 2, byteGap := 3 } 0 0 0
      (frameEvents { panel with width := 4, height := 1 } [] [])) = 417 := by decide +kernel

/-! ## The bus -/

/-- Q1 and S11: STATUS shows ILL. -/
theorem test_illegal_word :
    stat ((start panel).access ⟨.write, 0x000, 4, 0x00000007⟩).1 = 0x08 ∧
    stat ((start panel).access ⟨.write, 0x000, 4, 0x00000004⟩).1 = 0x08 := by decide

/-- R37, R66: acceptance latches the operands. -/
theorem test_accept_latches :
    (({ start panel with idx := 2, idx2 := 3, color := 0x111111, xy := 0x00050004 } : State).access
      ⟨.write, 0x000, 4, 0x00000101⟩).1.latch =
    { op := 1, a := true, idx := 2, idx2 := 3, color := 0x111111, x := 4, y := 5 } := by decide

/-- Q10, Q11, Q12, Q13: BUSERR, and nothing else. -/
theorem test_buserr :
    answer (fun t => (t.idx, stat t)) ((start panel).access ⟨.write, 0x008, 1, 5⟩) = ((0, 0x20), 0) ∧
    answer stat ((start panel).access ⟨.read, 0x006, 4, 0⟩) = (0x20, 0) ∧
    answer stat ((start panel).access ⟨.write, 0x030, 4, 0⟩) = (0x20, 0) ∧
    answer stat ((start panel).access ⟨.write, 0x02000000, 4, 1⟩) = (0x20, 0) := by decide

/-- Q9, Q14: the order of the checks while BUSY = 1. -/
theorem test_busy_checks :
    stat ((holding .transmit (start panel)).access ⟨.write, 0x01000024, 4, 1⟩).1 = 0x11 ∧
    stat ((holding .transmit (start panel)).access ⟨.write, 0x002, 4, 6⟩).1 = 0x21 := by decide

/-- Q15, Q16. -/
theorem test_status_write_one_to_clear :
    stat (({ start panel with status := ⟨false, true, true, true, true, true⟩ } : State).access
      ⟨.write, 0x004, 4, 0x00000014⟩).1 = 0x2A ∧
    stat (({ start panel with status := ⟨false, true, false, true, false, true⟩ } : State).access
      ⟨.write, 0x004, 4, 0xFFFFFFFF⟩).1 = 0x00 := by decide

/-- P9, P11: a window cell keeps 24 bits, and a read beyond N answers 0. -/
theorem test_window :
    ((((start panel).access ⟨.write, 0x01000010, 4, 0xFF00FF00⟩).1).access ⟨.read, 0x01000010, 4, 0⟩).2 =
      0x0000FF00 ∧
    answer stat ((start panel).access ⟨.read, 0x01FFFFFC, 4, 0⟩) = (0, 0) := by decide

/-- The configuration registers of 95_test_vectors.md 2.5. -/
theorem test_construction_registers :
    [0x01C#32, 0x020#32, 0x024#32, 0x028#32, 0x02C#32].map (fun a =>
      ((start { panel with clamp := true, frame := true }).access ⟨.read, a, 4, 0⟩).2) =
    [0x0000000C, 0x00030003, 0x00000009, 0x00000004, 0x000003E8] := by decide

/-! ## The Host -/

/-- The first lines of program L3-3, assembled: the label marks place 1. -/
theorem test_assemble :
    assemble [.op (.mov .h1 (.const 0)), .label ⟨7⟩, .op (.add .h1 (.reg .h1) (.const 1)),
      .op (.bltu (.reg .h1) (.const 3) ⟨7⟩), .op .halt] =
    some [.mov .h1 (.const 0), .add .h1 (.reg .h1) (.const 1), .bltu (.reg .h1) (.const 3) 1, .halt] := by
  decide

/-- 30_encoding.md R72: the POLL at place 3 of SETPIXEL branches back to its own first operation. -/
theorem test_poll_label :
    (Pseudo.setPixel (.const 0) (.const 0)).expandAt 0 |>.getLast? |> (· = some (.bnz .h7 3)) := by decide

/-! ## The host's two questions -/

/-- A command word presented to the machine after reset runs at the very next step. -/
theorem test_withFetchWord :
    after (·.result) (step (({ State.reset with xy := packXY 1 1 } : State).withFetchWord 32 0x2)) = some 4 := by
  decide

/-! ## Witnesses -/

theorem witness_DecodeAcceptsExactlyTheEncodedWords : decode 0x00000006 = .ok .transmit := rfl

theorem witness_IllegalWordSetsOnlyIll :
    ∀ v ∈ [0x00000007#32, 0x000000FF#32, 0x00000100#32, 0x00000106#32, 0x00000200#32, 0xFFFFFFFF#32],
      v ∉ [0x00000000#32, 0x00000001#32, 0x00000101#32, 0x00000002#32, 0x00000003#32, 0x00000004#32,
        0x00000005#32, 0x00000006#32] := by simp

theorem witness_OnlyClearbgLegalityDependsOnConfiguration : (0x00000003 : Word) ≠ 0x00000004 := by decide

theorem witness_MisalignedOrNonWordAccessOnlySetsBuserr :
    (1 ≠ 4 ∨ (0x008 : Word).extractLsb' 0 2 ≠ 0) ∧ (4 ≠ 4 ∨ (0x001 : Word).extractLsb' 0 2 ≠ 0) ∧
    (4 ≠ 4 ∨ (0x003 : Word).extractLsb' 0 2 ≠ 0) := by decide

/-- The ends of each unmapped range of 20_memory.md R46. -/
theorem witness_UnmappedAccessOnlySetsBuserr :
    ∀ a ∈ [0x30#32, 0x00FFFFFC#32, 0x02000000#32, 0x02FFFFFC#32, 0x03000000#32, 0xFFFFFFFC#32],
      a.extractLsb' 0 2 = 0 ∧
      ((0x30 ≤ a.toNat ∧ a.toNat < 0x01000000)
        ∨ ((start panel).cfg.hasBg = false ∧ 0x02000000 ≤ a.toNat ∧ a.toNat < 0x03000000)
        ∨ 0x03000000 ≤ a.toNat) := by simp [start, panel, State.powerOn]

theorem witness_StickyFlagsChangeNoBehaviour :
    (⟨false, true, true, true, true, true⟩ : Status).busy = (start panel).status.busy ∧
    (0x01000000 : Word) ≠ 0x004 ∧ ∃ t, exec .setpix (start panel) = .next t := ⟨rfl, by decide, _, rfl⟩

theorem witness_ConstructionRegistersReadParameters :
    (start panel).cfg.wellFormed = true ∧ (0x02C : Word) ∈ [0x01C#32, 0x020#32, 0x024#32, 0x028#32, 0x02C#32] := by
  decide

/-- Both buffers at the first and last cell, at N, and at the last index of the window, idle and busy. -/
theorem witness_WindowAccessReadsAndWritesOneCell :
    ∀ b ∈ [Buffer.fg, Buffer.bg], ∀ i ∈ [0, 8, 9, 2 ^ 22 - 1],
      (b = .bg → State.reset.cfg.hasBg = true) ∧ i < 2 ^ 22 ∧ Memory.wf (State.reset.buffer b) = true ∧
      State.reset.status.busy = false ∧ (holding .clear State.reset).status.busy = true ∧
      (i < State.reset.cfg.n ∨ State.reset.cfg.n ≤ i) := by decide

theorem witness_WindowsClosedWhileBusy :
    (holding .transmit State.reset).status.busy = true ∧
    ∀ a ∈ [0x01000000#32, 0x01FFFFFC#32, 0x02000000#32, 0x02FFFFFC#32], a.extractLsb' 0 2 = 0 ∧
      ((0x01000000 ≤ a.toNat ∧ a.toNat < 0x02000000)
        ∨ ((holding .transmit State.reset).cfg.hasBg = true ∧ 0x02000000 ≤ a.toNat ∧ a.toNat < 0x03000000)) := by
  simp [holding, State.reset, State.powerOn, Config.sample, State.accept]

theorem witness_OperandStatusAndWindowWritesAreIdempotent :
    Memory.wf State.reset.fg = true ∧ Memory.wf State.reset.bg = true ∧
    ∀ a ∈ [0x004#32, 0x014#32, 0x01000000#32, 0x02000020#32],
      a ∈ [0x004#32, 0x008#32, 0x00C#32, 0x010#32, 0x014#32] ∨ 0x01000000 ≤ a.toNat := by
  simp [State.reset, State.powerOn, Memory.wf]

/-- The first window offset past the last cell. -/
theorem witness_AtMostOneConditionPerStep :
    (∃ t, exec .setpix (start panel) = .next t) ∧ StickyFlag.ovf ≠ .drop ∧
    (holding .transmit (start panel)).status.busy = true ∧ (0x01000024 : Word).extractLsb' 0 2 = 0 ∧
    0x01000000 + 4 * (holding .transmit (start panel)).cfg.n ≤ (0x01000024 : Word).toNat ∧
    (0x01000024 : Word).toNat < 0x02000000 := ⟨⟨_, rfl⟩, by decide, by decide, by decide, by decide, by decide⟩

/-- The three cases on the 3x3 panel: even column; odd column with nothing left to subtract, T3; one more, T4. -/
theorem witness_TranslateIsExactOrOutOfRange :
    panel.wellFormed = true ∧ 2 % 2 = 0 ∧ ¬1 % 2 = 0 ∧ 1 + 5 ≤ (1 + 1) * panel.height ∧
    ¬1 + 6 ≤ (1 + 1) * panel.height := by decide

/-- The far corner of the grid and the last index. -/
theorem witness_TranslateIsABijectionOfTheGrid :
    panel.wellFormed = true ∧ (2 : Coord).toNat < panel.width ∧ (2 : Coord).toNat < panel.height ∧
    translateXY panel 2 2 = translateXY panel 2 2 ∧ 8 < panel.n := by decide

theorem witness_ClampedTranslateIsAlwaysInRange :
    ({ panel with clamp := true } : Config).wellFormed = true ∧ ({ panel with clamp := true } : Config).clamp = true := by
  decide

theorem witness_StripTranslateIsDirectIndexing :
    (panel.strip 5).height = 1 ∧ (panel.strip 5).clamp = false := by decide

theorem witness_NopOnlyClearsBusy : (holding .nop (start panel)).status.busy = true := by decide

/-- The last cell and the first index that drops. -/
theorem witness_SetpixWritesOneCellOrDrops :
    Memory.wf (start panel fun s => { s with fg := [(8, 1)] }).fg = true ∧
    ¬(start panel).cfg.n ≤ (8 : Word).toNat ∧ (start panel).cfg.n ≤ (9 : Word).toNat := by decide

theorem witness_SetpixxyWritesTheTranslatedCellOrDrops :
    Memory.wf (start panel).fg = true ∧ ¬panel.n ≤ (translateXY panel 2 2).toNat ∧
    panel.n ≤ (translateXY panel 3 2).toNat := by decide

theorem witness_ClearZeroesTheForeground :
    Memory.wf (start panel fun s => { s with fg := [(0, 1), (8, 2)] }).fg = true := by decide

theorem witness_ClearbgZeroesTheBackground :
    Memory.wf (start Config.sample fun s => { s with bg := [(0, 1), (8, 2)] }).bg = true ∧
    (start panel).cfg.hasBg = false ∧ (start panel).status.busy = false := by decide

/-- S5 and S7: bounds that meet, and reversed bounds. -/
theorem witness_SetrangeFillsTheInclusiveRange :
    Memory.wf (start panel).fg = true ∧ (8 : Word).toNat ≤ (8 : Word).toNat ∧
    (0 : Word).toNat < (0xFFFFFFFF : Word).toNat := by decide

/-- Before the first event and at the last one. -/
theorem witness_TransmitStepEmitsTheNextEvent :
    (holding .transmit (start dot)).cfg.wellFormed = true ∧ (holding .transmit (start dot)).seq ≠ some [] ∧
    ({ holding .transmit (start dot) with seq := some [.settle] } : State).seq ≠ some [] := by decide

theorem witness_UnreachableStatesStopByName :
    ({ holding .transmit (start dot) with seq := some [] } : State).seq = some [] ∧
    ({ start panel with status := { Status.atReset with busy := true }, latch := { Latch.atReset with op := 7 } } :
      State).status.busy = true ∧
    ({ start panel with status := { Status.atReset with busy := true }, latch := { Latch.atReset with op := 7 } } :
      State).heldInstr = none := by decide

theorem witness_TransmittedValueComposites :
    ∃ t, exec .transmit (holding .transmit (start dot)) = .next t := ⟨_, rfl⟩

theorem witness_FrameIsPixelsAscendingMsbFirst : 0 < panel.n ∧ 8 < panel.n ∧ 0 < 24 ∧ 23 < 24 := by decide

theorem witness_TransmitSendsTheWholeFrame :
    (holding .transmit (start dot)).cfg.wellFormed = true ∧ (holding .transmit (start dot)).status.busy = true ∧
    (holding .transmit (start dot)).heldInstr = some .transmit ∧ (holding .transmit (start dot)).seq = none ∧
    0 < (frameEvents dot [] []).length ∧ 25 < (frameEvents dot [] []).length := by decide

theorem witness_EngineStepPerformsTheHeldCommand :
    (start panel).status.busy = false ∧ (holding .clear (start panel)).status.busy = true ∧
    (holding .clear (start panel)).heldInstr = some .clear ∧ Instr.clear ≠ .transmit := by decide

theorem witness_StepRunsTheDecodedCommand :
    (holding .setpixxy (start panel)).cfg.wellFormed = true ∧ (holding .setpixxy (start panel)).status.busy = true ∧
    decode (0#23 ++ BitVec.ofBool (holding .setpixxy (start panel)).latch.a
      ++ (holding .setpixxy (start panel)).latch.op) = .ok .setpixxy ∧
    Instr.wellFormed (holding .setpixxy (start panel)).cfg .setpixxy = true ∧
    (holding .setpixxy (start panel)).turns = [] ∧
    ({ holding .setpixxy (start panel) with turns := [.engine, .host] } : State).turns = [.engine, .host] :=
  ⟨by decide, rfl, rfl, rfl, rfl, rfl⟩

theorem witness_StepIsOneTurnOfOneAgent :
    (start panel).cfg.wellFormed = true ∧ (start panel).turns = [] ∧ (start panel).status.busy = false ∧
    (holding .nop (start panel)).turns = [] ∧ (holding .nop (start panel)).status.busy = true ∧
    ∀ u ∈ [Turn.host, Turn.engine, Turn.reset], ({ start panel with turns := [u] } : State).turns = u :: [] := by
  decide

theorem witness_ResetSetsEveryPieceOfState :
    (start panel).cfg.wellFormed = true ∧
    ({ holding .transmit (start panel) with turns := [.reset] } : State).turns = [.reset] := by decide

theorem witness_PowerOnMeetsTheInvariant : ({ dot with height := 7 } : Config).wellFormed = true := by decide

/-- A block that has put the first two events of its frame on the wire. -/
def midFrame : State :=
  { holding .transmit (start dot) with
    fg := [(0, 0x800001)]
    seq := some ((frameEvents dot [(0, 0x800001)] []).drop 2)
    trace := [.settle, .bit true]
    lines := { clk := true, dat := true, frm := true } }

/-- The invariant's hardest clause, a frame in flight, is met by a concrete state. -/
theorem midFrame_inv : midFrame.Inv where
  cfg := by decide
  fgWf := by decide
  bgWf := by decide
  fgBelow := by decide
  bgBelow := by decide
  bgAbsent := by decide
  held := fun _ => ⟨.transmit, by decide⟩
  inFlight := by
    intro rest h
    cases h
    exact ⟨rfl, by decide, by decide, [.settle, .bit true], [], by decide, by decide, by decide, false, by decide⟩
  idleLines := by decide
  frmIdle := by decide

theorem witness_StepKeepsTheInvariant : midFrame.Inv ∧ ∃ t, step midFrame = .next t := ⟨midFrame_inv, _, rfl⟩

theorem witness_NoStepFaultsOrHalts : midFrame.Inv := midFrame_inv

theorem witness_EveryAcceptedCommandCompletes : midFrame.Inv := midFrame_inv

theorem witness_ConfigurationIsFixedAndTraceOnlyGrows : ∃ t, step midFrame = .next t := ⟨_, rfl⟩

theorem witness_WireChangesOnlyInTransmitOrReset :
    ∃ t, step midFrame = .next t ∧ (t.lines ≠ midFrame.lines ∨ t.trace ≠ midFrame.trace) :=
  ⟨_, rfl, by decide⟩

theorem witness_ResultChangesOnlyInTranslateOrReset :
    ∃ t, step (holding .translate (start panel fun s => { s with xy := packXY 1 1 })) = .next t ∧
      t.result ≠ (holding .translate (start panel fun s => { s with xy := packXY 1 1 })).result :=
  ⟨_, rfl, by decide⟩

theorem witness_LatchChangesOnlyAtAcceptanceOrReset :
    ∃ t, step (running (.writeCmd .setpix) (start panel)) = .next t ∧
      t.latch ≠ (running (.writeCmd .setpix) (start panel)).latch := ⟨_, rfl, by decide⟩

theorem witness_BusyRisesAtAcceptanceAndFallsAtCompletion :
    (∃ t, step (running (.writeCmd .setpix) (start panel)) = .next t ∧
      (running (.writeCmd .setpix) (start panel)).status.busy = false ∧ t.status.busy = true) ∧
    (∃ t, step (holding .nop (start panel)) = .next t ∧
      (holding .nop (start panel)).status.busy = true ∧ t.status.busy = false) ∧
    (∃ t, step { holding .transmit (start dot) with seq := some [.settle] } = .next t ∧
      ({ holding .transmit (start dot) with seq := some [.settle] } : State).status.busy = true ∧
      t.status.busy = false) :=
  ⟨⟨_, rfl, by decide, by decide⟩, ⟨_, rfl, by decide, by decide⟩, ⟨_, rfl, by decide, by decide⟩⟩

theorem witness_FlagFallsOnlyByStatusWriteOrReset :
    ∃ t, step (running (.writeReg .status (.const 2)) { start panel with status := { Status.atReset with drop := true } })
        = .next t ∧
      (running (.writeReg .status (.const 2)) { start panel with status := { Status.atReset with drop := true } }
        ).status.flag .drop = true ∧
      t.status.flag .drop = false := ⟨_, rfl, by decide, by decide⟩

theorem witness_ForegroundWritePaths :
    ∃ t, step (running (.write (.fg (.const 8)) 4 (.const 1)) (start panel)) = .next t ∧
      t.fg ≠ (running (.write (.fg (.const 8)) 4 (.const 1)) (start panel)).fg := ⟨_, rfl, by decide⟩

theorem witness_BackgroundWritePaths :
    ∃ t, step (running (.write (.bg (.const 8)) 4 (.const 1)) (start Config.sample)) = .next t ∧
      t.bg ≠ (running (.write (.bg (.const 8)) 4 (.const 1)) (start Config.sample)).bg := ⟨_, rfl, by decide⟩

theorem witness_HostStepLeavesACommandInFlightAlone : (holding .transmit (start panel)).status.busy = true := by
  decide

theorem witness_HostOperationsFollowTheNotation :
    (running (.read .h0 (.reg .npix) 4) (start panel)).host.prog[
      (running (.read .h0 (.reg .npix) 4) (start panel)).host.pc]? = some (.read .h0 (.reg .npix) 4) := by decide

theorem witness_PollLoopsExactlyWhileBusy :
    let s := (start panel).loadProgram (pollAt 0)
    s.host.pc = 0 ∧ s.host.prog[0]? = some (.read .h7 (.reg .status) 4) ∧
    s.host.prog[0 + 1]? = some (.and .h7 (.reg .h7) (.const 1)) ∧ s.host.prog[0 + 2]? = some (.bnz .h7 0) := by
  decide

end Sys2Proof.Tests
end

section
/-! PROOFS. 00_scope.md: whose turn a step is (R18), which configurations are refused (R8, R14, R19), and that from
every state of the invariant a step answers a next state (R19, 60_exceptions.md R107). -/

namespace Sys2Proof

theorem Config.wellFormed_iff (c : Config) : c.wellFormed = true ↔
    (1 ≤ c.width ∧ c.width ≤ 65535) ∧ (1 ≤ c.height ∧ c.height ≤ 65535) ∧ c.width * c.height ≤ 2 ^ 22 ∧
    (1 ≤ c.clkdiv ∧ c.clkdiv ≤ 65535) ∧ (1 ≤ c.settle ∧ c.settle ≤ 2 ^ 32 - 1) ∧
    c.byteGap ≤ 2 ^ 32 - 1 := by
  simp only [Config.wellFormed, Bool.and_eq_true, decide_eq_true_eq]
  rw [Config.n]
  omega

end Sys2Proof

namespace Sys2Proof.Machine

/-! Whose turn it is. -/

theorem takeTurn_of_cons {s : State} {u : Turn} {us : List Turn} (h : s.turns = u :: us) :
    s.takeTurn = (u, { s with turns := us }) := by
  rw [State.takeTurn, h]

theorem takeTurn_of_nil {s : State} (h : s.turns = []) :
    s.takeTurn = (if s.status.busy then .engine else .host, s) := by
  rw [State.takeTurn, h]

theorem step_of_wellFormed {s : State} (h : s.cfg.wellFormed = true) :
    step s = turnStep s.takeTurn.1 s.takeTurn.2 := by
  rw [step, if_pos h]

theorem step_of_not_wellFormed {s : State} (h : s.cfg.wellFormed = false) :
    step s = .refused .configOutOfRange := by
  rw [step, if_neg (by simp [h])]

/-- A listed turn is taken, and used up. -/
theorem step_of_cons {s : State} {u : Turn} {us : List Turn} (hc : s.cfg.wellFormed = true)
    (h : s.turns = u :: us) : step s = turnStep u { s with turns := us } := by
  rw [step_of_wellFormed hc, takeTurn_of_cons h]

/-- With no turn listed, BUSY says whose turn it is (notes/assumptions/3.md). -/
theorem step_of_nil {s : State} (hc : s.cfg.wellFormed = true) (h : s.turns = []) :
    step s = turnStep (if s.status.busy then .engine else .host) s := by
  rw [step_of_wellFormed hc, takeTurn_of_nil h]

/-! Which configurations are refused: no command and no turn refuses. -/

theorem exec_ne_refused (i : Instr) (s : State) (r : Refusal) : exec i s ≠ .refused r := by
  by_cases hi : i = .transmit
  · subst hi
    change execTransmit s ≠ _
    unfold execTransmit
    split <;> simp
  · obtain ⟨fg, bg, v, st, h, -⟩ := exec_of_ne_transmit s hi
    simp [h]

theorem engineStep_ne_refused (s : State) (r : Refusal) : engineStep s ≠ .refused r := by
  unfold engineStep
  split
  · split
    · exact exec_ne_refused _ s r
    · simp
  · simp

theorem turnStep_ne_refused (u : Turn) (s : State) (r : Refusal) : turnStep u s ≠ .refused r := by
  cases u with
  | host => simp [turnStep]
  | engine => exact engineStep_ne_refused s r
  | reset => simp [turnStep]

/-- A step refuses exactly the configurations out of range (00_scope.md R19). -/
theorem step_eq_refused_iff (s : State) (r : Refusal) :
    step s = .refused r ↔ s.cfg.wellFormed = false ∧ r = .configOutOfRange := by
  cases hc : s.cfg.wellFormed with
  | false => simp [step_of_not_wellFormed hc, eq_comm]
  | true => simp [step_of_wellFormed hc, turnStep_ne_refused]

/-! No fault: what a step needs in order to answer a next state. -/

@[simp] theorem takeTurn_pendingEvents (s : State) : s.takeTurn.2.pendingEvents = s.pendingEvents := by
  simp [State.pendingEvents]

/-- In a state of the invariant a TRANSMIT has an event to emit: what is left of the frame in flight is not
empty, and a frame not yet begun has at least one pixel. -/
theorem State.Inv.pendingEvents_ne_nil {s : State} (h : s.Inv) : s.pendingEvents ≠ [] := by
  unfold State.pendingEvents
  cases hs : s.seq with
  | some rest => exact (h.inFlight rest hs).rest_ne
  | none => exact frameEvents_ne_nil s.fg s.bg (n_ne_zero h.cfg)

theorem exists_exec_eq_next {s : State} (hp : s.pendingEvents ≠ []) (i : Instr) :
    ∃ t, exec i s = .next t := by
  by_cases hi : i = .transmit
  · obtain ⟨e, es, he⟩ := List.exists_cons_of_ne_nil hp
    exact ⟨_, hi ▸ execTransmit_of_pending he⟩
  · obtain ⟨fg, bg, v, st, h, -⟩ := exec_of_ne_transmit s hi
    exact ⟨_, h⟩

theorem exists_engineStep_eq_next {s : State} (hh : s.status.busy = true → ∃ i, s.heldInstr = some i)
    (hp : s.pendingEvents ≠ []) : ∃ t, engineStep s = .next t := by
  unfold engineStep
  cases hb : s.status.busy with
  | false => exact ⟨s, rfl⟩
  | true =>
    obtain ⟨i, hi⟩ := hh hb
    simpa [hi] using exists_exec_eq_next hp i

theorem State.Inv.exists_step_eq_next {s : State} (h : s.Inv) : ∃ t, step s = .next t := by
  rw [step_of_wellFormed h.cfg]
  cases s.takeTurn.1 with
  | host => exact ⟨_, rfl⟩
  | engine =>
    exact exists_engineStep_eq_next (by simpa using h.held) (by simpa using h.pendingEvents_ne_nil)
  | reset => exact ⟨_, rfl⟩

/-- Settles O42: the turn that `takeTurn` names decides the step. -/
theorem stepIsOneTurnOfOneAgent : Obligations.StepIsOneTurnOfOneAgent := by
  intro s hc
  refine ⟨fun ts h => step_of_cons hc h, fun ts h => step_of_cons hc h, fun ts h => step_of_cons hc h,
    fun h hb => ?_, fun h hb => ?_⟩
  · rw [step_of_nil hc h, if_pos hb, turnStep]
  · rw [step_of_nil hc h, if_neg (by simp [hb]), turnStep]

/-- Settles O43: neither a command nor a turn refuses, so only the check on the configuration does. -/
theorem outOfRangeConfigurationIsRefused : Obligations.OutOfRangeConfigurationIsRefused :=
  ⟨Config.wellFormed_iff, step_eq_refused_iff⟩

/-- Settles O47: the invariant gives a legal held command and an event for TRANSMIT to emit, which shuts out
both faults. -/
theorem noStepFaultsOrHalts : Obligations.NoStepFaultsOrHalts := fun _ h => h.exists_step_eq_next

end Sys2Proof.Machine
end

section
/-! PROOFS. 10_state.md: the register file. A word access at a register's offset is a read or a write of that register
(R20), so each register is settled by its own read and write (R21 to R34); and the sticky flags, which only record
(R24), reach nothing but the word that STATUS reads. -/

namespace Sys2Proof.Machine

variable {s u : State}

/-! One register (10_state.md R20). -/

theorem access_read_reg (s : State) (r : RegName) (v : Word) :
    s.access ⟨.read, r.offset, 4, v⟩ = (s, s.regRead r) := access_reg s r .read v

theorem access_write_reg (s : State) (r : RegName) (v : Word) :
    s.access ⟨.write, r.offset, 4, v⟩ = (s.regWrite v r, 0) := access_reg s r .write v

/-- The bits of a word whose lowest bit is appended as a flag. -/
theorem getLsbD_append_ofBool {n : Nat} (x : BitVec n) (b : Bool) (k : Nat) :
    (x ++ BitVec.ofBool b).getLsbD k = if k = 0 then b else x.getLsbD (k - 1) := BitVec.getLsbD_concat x b k

/-- STATUS holds its fields at the bits of 10_state.md R22. -/
theorem Status.getLsbD_toWord (st : Status) (k : Nat) : st.toWord.getLsbD k =
    if k = 0 then st.busy else if k = 1 then st.drop else if k = 2 then st.ovf
    else if k = 3 then st.ill else if k = 4 then st.coll else if k = 5 then st.buserr else false := by
  simp only [Status.toWord, getLsbD_append_ofBool]
  rcases k with _ | _ | _ | _ | _ | _ | k <;> simp

/-! The construction registers (10_state.md R30 to R34). -/

/-- CFG holds the flags at the bits of 10_state.md R30. -/
theorem getLsbD_cfgWord (c : Config) (k : Nat) : (cfgWord c).getLsbD k =
    if k = 0 then decide (c.mode = .manual) else if k = 1 then c.hasBg
    else if k = 2 then c.clamp else if k = 3 then c.frame else false := by
  simp only [cfgWord, getLsbD_append_ofBool]
  rcases k with _ | _ | _ | _ | k <;> simp

theorem geomWord_width {c : Config} (h : c.width ≤ 65535) : ((geomWord c).extractLsb' 0 16).toNat = c.width := by
  rw [geomWord, BitVec.extractLsb'_append_eq_right, BitVec.toNat_ofNat, Nat.mod_eq_of_lt (by omega)]

theorem geomWord_height {c : Config} (h : c.height ≤ 65535) :
    ((geomWord c).extractLsb' 16 16).toNat = c.height := by
  rw [geomWord, BitVec.extractLsb'_append_eq_left, BitVec.toNat_ofNat, Nat.mod_eq_of_lt (by omega)]

theorem regRead_npix_toNat (h : s.cfg.width * s.cfg.height ≤ 2 ^ 22) :
    (s.regRead .npix).toNat = s.cfg.width * s.cfg.height := by
  rw [State.regRead, Config.n, BitVec.toNat_ofNat, Nat.mod_eq_of_lt (by omega)]

theorem regRead_clkdiv_toNat (h : s.cfg.clkdiv ≤ 65535) : (s.regRead .clkdiv).toNat = s.cfg.clkdiv := by
  rw [State.regRead, BitVec.toNat_append, BitVec.toNat_ofNat, BitVec.toNat_ofNat,
    Nat.mod_eq_of_lt (show s.cfg.clkdiv < 2 ^ 16 by omega), Nat.zero_mod, Nat.zero_shiftLeft, Nat.zero_or]

theorem regRead_settle_toNat (h : s.cfg.settle ≤ 2 ^ 32 - 1) : (s.regRead .settle).toNat = s.cfg.settle := by
  rw [State.regRead, BitVec.toNat_ofNat, Nat.mod_eq_of_lt (by omega)]

/-- The registers that hold the construction parameters. -/
def constructionRegs : List RegName := [.cfg, .geom, .npix, .clkdiv, .settle]

theorem regWrite_constructionReg (s : State) (v : Word) {r : RegName} (h : r ∈ constructionRegs) :
    s.regWrite v r = s := by
  simp only [constructionRegs, List.mem_cons, List.not_mem_nil, or_false] at h
  rcases h with rfl | rfl | rfl | rfl | rfl <;> rfl

/-! Two states that differ in sticky flags alone (10_state.md R24). -/

/-- The states differ in sticky flags alone. -/
def State.SameButFlags (s u : State) : Prop := ∃ st, st.busy = s.status.busy ∧ u = { s with status := st }

namespace State.SameButFlags

theorem cfg (h : s.SameButFlags u) : u.cfg = s.cfg := by obtain ⟨st, -, rfl⟩ := h; rfl

theorem busy (h : s.SameButFlags u) : u.status.busy = s.status.busy := by obtain ⟨st, hb, rfl⟩ := h; exact hb

theorem buffer (h : s.SameButFlags u) (b : Buffer) : u.buffer b = s.buffer b := by
  obtain ⟨st, -, rfl⟩ := h
  cases b <;> rfl

theorem raise (h : s.SameButFlags u) (f : StickyFlag) : (s.raise f).SameButFlags (u.raise f) := by
  obtain ⟨st, hb, rfl⟩ := h
  exact ⟨st.set f, by simp [hb], rfl⟩

theorem clearFlags (h : s.SameButFlags u) (v : Word) : (s.clearFlags v).SameButFlags (u.clearFlags v) := by
  obtain ⟨st, hb, rfl⟩ := h
  exact ⟨st.clearBy v, by simp [hb], rfl⟩

theorem complete (h : s.SameButFlags u) : s.complete.SameButFlags u.complete := by
  obtain ⟨st, -, rfl⟩ := h
  exact ⟨{ st with busy := false }, rfl, rfl⟩

theorem accept (h : s.SameButFlags u) (v : Word) : (s.accept v).SameButFlags (u.accept v) := by
  obtain ⟨st, -, rfl⟩ := h
  exact ⟨{ st with busy := true }, rfl, rfl⟩

theorem setBuffer (h : s.SameButFlags u) (b : Buffer) (m : Memory) :
    (s.setBuffer b m).SameButFlags (u.setBuffer b m) := by
  obtain ⟨st, hb, rfl⟩ := h
  exact ⟨st, by simp [hb], by cases b <;> rfl⟩

theorem writePixel (h : s.SameButFlags u) (b : Buffer) (i : Nat) (c : Color) :
    (s.writePixel b i c).SameButFlags (u.writePixel b i c) := by
  unfold State.writePixel
  rw [h.cfg, h.buffer]
  split
  · exact h.setBuffer b _
  · exact h.raise .drop

theorem clearBuffer (h : s.SameButFlags u) (b : Buffer) : (s.clearBuffer b).SameButFlags (u.clearBuffer b) := by
  unfold State.clearBuffer
  rw [h.cfg, h.buffer]
  exact h.setBuffer b _

theorem writeRange (h : s.SameButFlags u) (i j : Nat) (c : Color) :
    (s.writeRange i j c).SameButFlags (u.writeRange i j c) := by
  have hfg : u.fg = s.fg := h.buffer .fg
  unfold State.writeRange
  rw [h.cfg, hfg]
  split
  · exact (h.setBuffer .fg _).raise .drop
  · exact h.setBuffer .fg _

theorem cmdWrite (h : s.SameButFlags u) (v : Word) : (s.cmdWrite v).SameButFlags (u.cmdWrite v) := by
  unfold State.cmdWrite
  rw [h.cfg, h.busy]
  split
  · exact h.raise .ovf
  · cases legalInstr s.cfg v with
    | none => exact h.raise .ill
    | some i => exact h.accept v

theorem regWrite (h : s.SameButFlags u) (v : Word) (r : RegName) :
    (s.regWrite v r).SameButFlags (u.regWrite v r) := by
  cases r with
  | cmd => exact h.cmdWrite v
  | status => exact h.clearFlags v
  | idx | idx2 | color | xy => obtain ⟨st, hb, rfl⟩ := h; exact ⟨st, hb, rfl⟩
  | result | cfg | geom | npix | clkdiv | settle => exact h

theorem regRead (h : s.SameButFlags u) {r : RegName} (hr : r ≠ .status) : u.regRead r = s.regRead r := by
  obtain ⟨st, -, rfl⟩ := h
  cases r with
  | status => exact absurd rfl hr
  | cmd | idx | idx2 | color | xy | result | cfg | geom | npix | clkdiv | settle => rfl

theorem regAccess (h : s.SameButFlags u) (r : RegName) (k : AccessKind) (v : Word) :
    (s.regAccess r k v).1.SameButFlags (u.regAccess r k v).1 ∧
    (r ≠ .status → (u.regAccess r k v).2 = (s.regAccess r k v).2) := by
  cases k with
  | read => exact ⟨h, h.regRead⟩
  | write => exact ⟨h.regWrite v r, fun _ => rfl⟩

theorem winAccess (h : s.SameButFlags u) (b : Buffer) (k : AccessKind) (i : Nat) (v : Word) :
    (s.winAccess b k i v).1.SameButFlags (u.winAccess b k i v).1 ∧
    (u.winAccess b k i v).2 = (s.winAccess b k i v).2 := by
  unfold State.winAccess
  rw [h.busy, h.cfg, h.buffer]
  split
  · exact ⟨h.raise .coll, rfl⟩
  · cases k with
    | read => exact ⟨h, rfl⟩
    | write => exact ⟨h.writePixel b i _, rfl⟩

theorem access (h : s.SameButFlags u) (t : Access) :
    (s.access t).1.SameButFlags (u.access t).1 ∧ (t.addr ≠ 0x004 → (u.access t).2 = (s.access t).2) := by
  obtain ha | ⟨r, hs, hr, -⟩ | ⟨b, i, hs, hi, hlt, hbg, ha⟩ := access_cases s t
  · rw [ha s rfl, ha u h.cfg]
    exact ⟨h.raise .buserr, fun _ => rfl⟩
  · obtain ⟨k, a, n, v⟩ := t
    subst hs hr
    simp only [access_reg]
    obtain ⟨hstate, hword⟩ := h.regAccess r k v
    exact ⟨hstate, fun h4 => hword fun hr => h4 (by rw [hr]; rfl)⟩
  · rw [ha, access_window u b hs (by simpa [h.cfg] using hbg) hlt hi]
    exact (h.winAccess b t.kind i t.data).imp_right fun hword _ => hword

theorem emitThen (h : s.SameButFlags u) (e : WireEvent) (es : List WireEvent) :
    (s.emitThen e es).SameButFlags (u.emitThen e es) := by
  obtain ⟨st, hb, rfl⟩ := h
  rw [emitThen_eq, emitThen_eq]
  exact ⟨{ st with busy := if es = [] then false else st.busy }, by simp [hb], rfl⟩

/-- The Engine step of a command reads no sticky flag. -/
theorem exec {t : State} (h : s.SameButFlags u) {i : Instr} (he : exec i s = .next t) :
    ∃ t', Machine.exec i u = .next t' ∧ t.SameButFlags t' := by
  have hlatch : u.latch = s.latch := by obtain ⟨st, -, rfl⟩ := h; rfl
  cases i with
  | nop => cases he; exact ⟨_, rfl, h.complete⟩
  | setpix => cases he; exact ⟨_, rfl, by rw [hlatch]; exact (h.writePixel .fg _ _).complete⟩
  | setpixxy => cases he; exact ⟨_, rfl, by rw [hlatch, h.cfg]; exact (h.writePixel .fg _ _).complete⟩
  | translate =>
    cases he
    obtain ⟨st, -, rfl⟩ := h
    exact ⟨_, rfl, { st with busy := false }, rfl, rfl⟩
  | clear => cases he; exact ⟨_, rfl, (h.clearBuffer .fg).complete⟩
  | clearbg => cases he; exact ⟨_, rfl, (h.clearBuffer .bg).complete⟩
  | setrange =>
    change execSetrange s = _ at he
    change ∃ t', execSetrange u = _ ∧ _
    unfold execSetrange at he ⊢
    rw [hlatch]
    by_cases hle : s.latch.idx.toNat ≤ s.latch.idx2.toNat
    · rw [if_pos hle] at he ⊢
      cases he; exact ⟨_, rfl, (h.writeRange _ _ _).complete⟩
    · rw [if_neg hle] at he ⊢
      cases he; exact ⟨_, rfl, h.complete⟩
  | transmit =>
    obtain ⟨e, es, hp, rfl⟩ := execTransmit_cases he
    have hpu : u.pendingEvents = e :: es := by obtain ⟨st, -, rfl⟩ := h; exact hp
    exact ⟨_, execTransmit_of_pending hpu, h.emitThen e es⟩

end State.SameButFlags

end Sys2Proof.Machine

namespace Sys2Proof.Machine

/-- Settles O6: the offsets are `RegName.offset`, and a word read there is `regRead`. -/
theorem registersAndCellsStandAtTheirOffsets : Obligations.RegistersAndCellsStandAtTheirOffsets :=
  ⟨rfl, access_read_reg, fun _ _ => rfl, fun _ _ => ⟨rfl, rfl, rfl⟩⟩

/-- Settles O11: reads and writes of the registers CMD to RESULT, STATUS aside. -/
theorem operandRegistersKeepWhatIsWritten : Obligations.OperandRegistersKeepWhatIsWritten := by
  intro s v w
  have written (r : RegName) : (s.access ⟨.write, r.offset, 4, v⟩).1 = s.regWrite v r :=
    congrArg Prod.fst (access_write_reg s r v)
  have color : wordColor v = v.extractLsb' 0 24 := BitVec.setWidth_eq_extractLsb' (by decide)
  exact ⟨written .idx, written .idx2, color ▸ written .color, written .xy, access_read_reg s .idx w,
    access_read_reg s .idx2 w, access_read_reg s .color w, access_read_reg s .xy w, access_read_reg s .cmd w,
    access_read_reg s .result w, written .result⟩

/-- Settles O9: a read answers `Status.toWord`, a write is `Status.clearBy`. -/
theorem statusReadsFieldsAndClearsWrittenOnes : Obligations.StatusReadsFieldsAndClearsWrittenOnes := by
  intro s v
  have hread : s.access ⟨.read, 0x004, 4, v⟩ = (s, s.status.toWord) := access_read_reg s .status v
  have hwrite : s.access ⟨.write, 0x004, 4, v⟩ = (s.clearFlags v, 0) := access_write_reg s .status v
  rw [hread, hwrite]
  exact ⟨⟨rfl, s.status.getLsbD_toWord⟩, rfl, rfl, s.status.flag_clearBy v⟩

/-- Settles O10: neither an access nor a command reads a sticky flag, but for the read of STATUS. -/
theorem stickyFlagsChangeNoBehaviour : Obligations.StickyFlagsChangeNoBehaviour := by
  intro s st hst
  have h : s.SameButFlags { s with status := st } := ⟨st, hst, rfl⟩
  refine ⟨fun t => ?_, fun i t he => ?_⟩
  · obtain ⟨⟨st', hb, hs⟩, hword⟩ := h.access t
    exact ⟨st', hb, hs, hword⟩
  · obtain ⟨_, he', st', hb, rfl⟩ := h.exec he
    exact ⟨st', hb, he'⟩

/-- Settles O12: the five registers read the parameters, which in range fit their fields, and a write to them is
the identity. -/
theorem constructionRegistersReadParameters : Obligations.ConstructionRegistersReadParameters := by
  intro s v hwf
  obtain ⟨⟨-, hw⟩, ⟨-, hh⟩, hn, ⟨-, hclkdiv⟩, ⟨-, hsettle⟩, -⟩ := s.cfg.wellFormed_iff.mp hwf
  have read (r : RegName) : (s.access ⟨.read, r.offset, 4, v⟩).2 = s.regRead r :=
    congrArg Prod.snd (access_read_reg s r v)
  have cfg : (s.access ⟨.read, 0x01C, 4, v⟩).2 = cfgWord s.cfg := read .cfg
  have geom : (s.access ⟨.read, 0x020, 4, v⟩).2 = geomWord s.cfg := read .geom
  have npix : (s.access ⟨.read, 0x024, 4, v⟩).2 = s.regRead .npix := read .npix
  have clkdiv : (s.access ⟨.read, 0x028, 4, v⟩).2 = s.regRead .clkdiv := read .clkdiv
  have settle : (s.access ⟨.read, 0x02C, 4, v⟩).2 = s.regRead .settle := read .settle
  rw [cfg, geom, npix, clkdiv, settle]
  refine ⟨fun a ha => ?_, getLsbD_cfgWord s.cfg, geomWord_width hw, geomWord_height hh, regRead_npix_toNat hn,
    regRead_clkdiv_toNat hclkdiv, regRead_settle_toNat hsettle⟩
  obtain ⟨r, hr, rfl⟩ : ∃ r ∈ constructionRegs, r.offset = a := List.mem_map.mp ha
  rw [access_read_reg, access_write_reg, regWrite_constructionReg s v hr]
  exact ⟨rfl, rfl⟩

end Sys2Proof.Machine
end

section
/-! PROOFS. 10_state.md: the invariant. It reads the registers, the Host and the turns nowhere, so only three things can
endanger it: a buffer write, an acceptance, and an event of TRANSMIT. -/

namespace Sys2Proof.Machine

/-! The buffers' part of the invariant (10_state.md R35, R36). -/

/-- Both buffers are canonical with cells `0 .. N-1` only, and BG is empty where it does not exist. -/
structure State.CanonicalBuffers (s : State) : Prop where
  wf : ∀ b, Memory.wf (s.buffer b) = true
  below : ∀ b, Memory.below s.cfg.n (s.buffer b) = true
  bgAbsent : s.cfg.hasBg = false → s.bg = []

theorem State.Inv.canonicalBuffers {s : State} (h : s.Inv) : s.CanonicalBuffers where
  wf b := by cases b <;> [exact h.fgWf; exact h.bgWf]
  below b := by cases b <;> [exact h.fgBelow; exact h.bgBelow]
  bgAbsent := h.bgAbsent

theorem canonicalBuffers_of_nil {s : State} (hf : s.fg = []) (hb : s.bg = []) : s.CanonicalBuffers where
  wf b := by cases b <;> simp [hf, hb, Memory.wf]
  below b := by cases b <;> simp [hf, hb, Memory.below]
  bgAbsent _ := hb

theorem State.CanonicalBuffers.of_eq {s t : State} (h : s.CanonicalBuffers) (hc : t.cfg = s.cfg)
    (hf : t.fg = s.fg) (hb : t.bg = s.bg) : t.CanonicalBuffers where
  wf b := by cases b <;> [simpa [hf] using h.wf .fg; simpa [hb] using h.wf .bg]
  below b := by cases b <;> [simpa [hc, hf] using h.below .fg; simpa [hc, hb] using h.below .bg]
  bgAbsent := hc ▸ hb ▸ h.bgAbsent

theorem State.CanonicalBuffers.setBuffer {s : State} (h : s.CanonicalBuffers) {b : Buffer} {m : Memory}
    (hwf : Memory.wf m = true) (hbelow : Memory.below s.cfg.n m = true)
    (hbg : b = .bg → s.cfg.hasBg = false → m = []) : (s.setBuffer b m).CanonicalBuffers := by
  cases b with
  | fg =>
    exact ⟨fun b => by cases b <;> [exact hwf; exact h.wf .bg],
      fun b => by cases b <;> [exact hbelow; exact h.below .bg], h.bgAbsent⟩
  | bg =>
    exact ⟨fun b => by cases b <;> [exact h.wf .fg; exact hwf],
      fun b => by cases b <;> [exact h.below .fg; exact hbelow], hbg rfl⟩

theorem State.CanonicalBuffers.writePixel {s : State} (h : s.CanonicalBuffers) {b : Buffer}
    (hb : b = .bg → s.cfg.hasBg = true) (i : Nat) (c : Color) : (s.writePixel b i c).CanonicalBuffers := by
  obtain ⟨hi, hw⟩ | ⟨-, hw⟩ := writePixel_cases s b i c
  · rw [hw]
    exact h.setBuffer (Memory.wf_write i c (h.wf b)) (Memory.below_write c hi (h.below b))
      fun h1 h2 => by simp [hb h1] at h2
  · exact hw ▸ h.of_eq rfl rfl rfl

theorem State.CanonicalBuffers.clearBuffer {s : State} (h : s.CanonicalBuffers) (b : Buffer) :
    (s.clearBuffer b).CanonicalBuffers :=
  h.setBuffer (Memory.wf_fill 0 0 _ (h.wf b)) (Memory.below_fill 0 _ (by omega) (h.below b))
    fun h1 h2 => by simp [h1, h.bgAbsent h2]

theorem State.CanonicalBuffers.writeRange {s : State} (h : s.CanonicalBuffers) (i j : Nat) (c : Color) :
    (s.writeRange i j c).CanonicalBuffers := by
  have filled : (s.setBuffer .fg (Memory.fill i c (min (j + 1) s.cfg.n - i) s.fg)).CanonicalBuffers := by
    by_cases hi : i ≤ s.cfg.n
    · exact h.setBuffer (Memory.wf_fill i c _ (h.wf .fg)) (Memory.below_fill c _ (by omega) (h.below .fg)) nofun
    · rw [show min (j + 1) s.cfg.n - i = 0 by omega]
      exact h.of_eq rfl rfl rfl
  unfold State.writeRange
  split
  · exact filled.of_eq rfl rfl rfl
  · exact filled

/-- Every command but TRANSMIT, which writes no buffer, keeps the buffers canonical. -/
theorem State.CanonicalBuffers.exec {s t : State} (h : s.CanonicalBuffers) {i : Instr}
    (hi : i ≠ .transmit) (he : exec i s = .next t) : t.CanonicalBuffers := by
  cases i with
  | nop => cases he; exact h.of_eq rfl rfl rfl
  | setpix => cases he; exact (h.writePixel (b := .fg) nofun _ _).of_eq rfl rfl rfl
  | setpixxy => cases he; exact (h.writePixel (b := .fg) nofun _ _).of_eq rfl rfl rfl
  | translate => cases he; exact h.of_eq rfl rfl rfl
  | clear => cases he; exact (h.clearBuffer .fg).of_eq rfl rfl rfl
  | clearbg => cases he; exact (h.clearBuffer .bg).of_eq rfl rfl rfl
  | setrange =>
    change execSetrange s = _ at he
    unfold execSetrange at he
    split at he
    · cases he; exact (h.writeRange _ _ _).of_eq rfl rfl rfl
    · cases he; exact h.of_eq rfl rfl rfl
  | transmit => exact absurd rfl hi

/-! Between frames. -/

/-- With no frame in flight the invariant is its parts for the configuration, the buffers, the held command and
the idle lines. -/
theorem inv_of_seq_none {s : State} (hc : s.cfg.wellFormed = true) (hb : s.CanonicalBuffers)
    (hh : s.status.busy = true → ∃ i, s.heldInstr = some i) (hs : s.seq = none)
    (hl : s.lines.clk = false ∧ s.lines.frm = true) : s.Inv where
  cfg := hc
  fgWf := hb.wf .fg
  bgWf := hb.wf .bg
  fgBelow := hb.below .fg
  bgBelow := hb.below .bg
  bgAbsent := hb.bgAbsent
  held := hh
  inFlight rest hr := by simp [hs] at hr
  idleLines _ := hl
  frmIdle _ := hl.2

/-- A frame is in flight only while TRANSMIT is held. -/
theorem State.Inv.seq_eq_none {s : State} (h : s.Inv)
    (hn : s.status.busy = true → s.heldInstr ≠ some .transmit) : s.seq = none :=
  Option.eq_none_iff_forall_ne_some.mpr fun rest hr =>
    hn (h.inFlight rest hr).busy (h.inFlight rest hr).held

theorem State.Inv.seq_eq_none_of_idle {s : State} (h : s.Inv) (hb : s.status.busy = false) : s.seq = none :=
  h.seq_eq_none (by simp [hb])

theorem inv_of_reset {s : State} (hc : s.cfg.wellFormed = true) (hf : s.fg = []) (hb : s.bg = [])
    (hst : s.status = .atReset) (hs : s.seq = none) (hl : s.lines = .atReset) : s.Inv :=
  inv_of_seq_none hc (canonicalBuffers_of_nil hf hb) (by simp [hst, Status.atReset]) hs
    (by simp [hl, Lines.atReset])

theorem powerOn_inv {c : Config} (hc : c.wellFormed = true) : (State.powerOn c).Inv :=
  inv_of_reset hc rfl rfl rfl rfl rfl

/-! What the invariant does not read: the sticky flags, the operand registers, RESULT, the Host, the turns. -/

theorem State.Inv.of_registers {s : State} (h : s.Inv) {st : Status} (hb : st.busy = s.status.busy)
    {idx idx2 xy result : Word} {color : Color} {host : HostState} {turns : List Turn} :
    ({ s with status := st, idx := idx, idx2 := idx2, color := color, xy := xy, result := result
              host := host, turns := turns } : State).Inv where
  cfg := h.cfg
  fgWf := h.fgWf
  bgWf := h.bgWf
  fgBelow := h.fgBelow
  bgBelow := h.bgBelow
  bgAbsent := h.bgAbsent
  held hbusy := h.held (hb ▸ hbusy)
  inFlight rest hr := by
    obtain ⟨busy, held, rest_ne, sent⟩ := h.inFlight rest hr
    exact ⟨hb.trans busy, held, rest_ne, sent⟩
  idleLines := h.idleLines
  frmIdle := h.frmIdle

theorem State.Inv.raise {s : State} (h : s.Inv) (f : StickyFlag) : (s.raise f).Inv :=
  h.of_registers (Status.set_busy _ f)

theorem State.Inv.takeTurn {s : State} (h : s.Inv) : s.takeTurn.2.Inv := by
  rw [takeTurn_state]
  exact h.of_registers rfl

/-! The Host. -/

theorem State.Inv.accept {s : State} (h : s.Inv) (hb : s.status.busy = false) {v : Word}
    (hv : ∃ i, legalInstr s.cfg v = some i) : (s.accept v).Inv :=
  inv_of_seq_none h.cfg (h.canonicalBuffers.of_eq rfl rfl rfl) (fun _ => hv.imp fun _ => heldInstr_accept) rfl
    (h.idleLines (h.seq_eq_none_of_idle hb))

/-- The window is open only while BUSY = 0, where no frame depends on the buffers. -/
theorem State.Inv.writePixel_of_idle {s : State} (h : s.Inv) (hidle : s.status.busy = false) {b : Buffer}
    (hb : b = .bg → s.cfg.hasBg = true) (i : Nat) (c : Color) : (s.writePixel b i c).Inv := by
  have hseq := h.seq_eq_none_of_idle hidle
  have hbuf := h.canonicalBuffers.writePixel hb i c
  obtain ⟨m, st, hst, hw⟩ := writePixel_frame s b i c
  rw [hw] at hbuf ⊢
  exact inv_of_seq_none (by simpa using h.cfg) hbuf (by simp [hst, hidle]) (by simpa using hseq)
    (by simpa using h.idleLines hseq)

theorem State.Inv.access {s : State} (h : s.Inv) (t : Access) : (s.access t).1.Inv := by
  obtain ⟨f, -, ha⟩ | ha | ⟨-, -, ⟨-, hb, hv, ha⟩ | ⟨-, ha⟩ | ha | ha | ha | ha | ⟨b, i, -, -, hbg, hb, ha⟩⟩ :=
    access_state_cases s t
  all_goals rw [ha]
  · exact h.raise f
  · exact h
  · exact h.accept hb hv
  · exact h.of_registers (Status.clearBy_busy _ _)
  · exact h.of_registers rfl
  · exact h.of_registers rfl
  · exact h.of_registers rfl
  · exact h.of_registers rfl
  · exact h.writePixel_of_idle hb hbg i _

theorem State.Inv.hostStep {s : State} (h : s.Inv) : s.hostStep.Inv := by
  obtain ⟨x, hs⟩ | ⟨p, n, e, x, -, hs⟩ | ⟨r, p, n, x, -, hs⟩ := hostStep_cases s
  · exact hs ▸ h.of_registers rfl
  · exact hs ▸ (h.access _).of_registers rfl
  · exact hs ▸ (h.access _).of_registers rfl

/-! The Engine. -/

theorem State.Inv.exec_of_ne_transmit {s t : State} (h : s.Inv) {i : Instr} (hi : i ≠ .transmit)
    (hheld : s.heldInstr = some i) (he : exec i s = .next t) : t.Inv := by
  have hseq : s.seq = none := h.seq_eq_none fun _ => by simpa [hheld] using hi
  have hbuf := h.canonicalBuffers.exec hi he
  obtain ⟨fg, bg, r, st, hx, hidle, -⟩ := Machine.exec_of_ne_transmit s hi
  cases hx.symm.trans he
  exact inv_of_seq_none h.cfg hbuf (by simp [hidle]) hseq (h.idleLines hseq)

/-- The frame of the buffers stands on the wire but for `rest`, which may be all of it. -/
def State.FrameSentBut (s : State) (rest : List WireEvent) : Prop :=
  ∃ sent before d, frameEvents s.cfg s.fg s.bg = sent ++ rest ∧ s.trace = before ++ sent ∧
    s.lines = sent.foldl (linesAfter s.cfg) { clk := false, dat := d, frm := true }

theorem State.Inv.frameSentBut_pending {s : State} (h : s.Inv) : s.FrameSentBut s.pendingEvents := by
  unfold State.pendingEvents
  cases hs : s.seq with
  | some rest =>
    obtain ⟨sent, before, -, hframe, htrace, d, hlines⟩ := (h.inFlight rest hs).sent
    exact ⟨sent, before, d, hframe, htrace, hlines⟩
  | none =>
    obtain ⟨hclk, hfrm⟩ := h.idleLines hs
    refine ⟨[], s.trace, s.lines.dat, rfl, (List.append_nil _).symm, ?_⟩
    simp [← hclk, ← hfrm]

/-- The last event of a frame leaves the lines idle (10_state.md R39). -/
theorem State.FrameSentBut.idle_after_last {s : State} {e : WireEvent} (h : s.FrameSentBut [e]) :
    (linesAfter s.cfg s.lines e).clk = false ∧ (linesAfter s.cfg s.lines e).frm = true := by
  obtain ⟨sent, before, d, hframe, -, hlines⟩ := h
  simpa [hframe, hlines] using idle_after_frame s.cfg s.fg s.bg d

/-- An event before the last leaves a frame in flight. -/
theorem State.FrameSentBut.inFlight_emitThen {s : State} {e : WireEvent} {es : List WireEvent}
    (h : s.FrameSentBut (e :: es)) (hes : es ≠ []) (hb : s.status.busy = true)
    (hh : s.heldInstr = some .transmit) : (s.emitThen e es).InFlight es := by
  obtain ⟨sent, before, d, hf, ht, hl⟩ := h
  rw [emitThen_eq]
  exact ⟨by simp [hes, hb], hh, hes, sent ++ [e], before, by simp, by simp [hf], by simp [ht], d,
    by simp [hl]⟩

/-- An event of an unframed block leaves FRM alone (10_state.md R39). -/
theorem State.FrameSentBut.frm_emit {s : State} {e : WireEvent} {es : List WireEvent}
    (h : s.FrameSentBut (e :: es)) (hc : s.cfg.framed = false) :
    (linesAfter s.cfg s.lines e).frm = s.lines.frm := by
  obtain ⟨sent, before, d, hf, -, -⟩ := h
  exact frm_of_unframed hc s.fg s.bg (by simp [hf]) s.lines

theorem State.Inv.emitThen {s : State} (h : s.Inv) (hb : s.status.busy = true)
    (hh : s.heldInstr = some .transmit) {e : WireEvent} {es : List WireEvent}
    (hp : s.pendingEvents = e :: es) : (s.emitThen e es).Inv := by
  have hsent : s.FrameSentBut (e :: es) := hp ▸ h.frameSentBut_pending
  cases es with
  | nil =>
    exact inv_of_seq_none h.cfg (h.canonicalBuffers.of_eq rfl rfl rfl) nofun rfl hsent.idle_after_last
  | cons e' es =>
    exact {
      cfg := h.cfg
      fgWf := h.fgWf
      bgWf := h.bgWf
      fgBelow := h.fgBelow
      bgBelow := h.bgBelow
      bgAbsent := h.bgAbsent
      held := h.held
      inFlight := by
        rintro rest ⟨⟩
        exact hsent.inFlight_emitThen (by simp) hb hh
      idleLines := nofun
      frmIdle := fun hc => (hsent.frm_emit hc).trans (h.frmIdle hc) }

theorem State.Inv.exec {s t : State} (h : s.Inv) (hb : s.status.busy = true) {i : Instr}
    (hheld : s.heldInstr = some i) (he : exec i s = .next t) : t.Inv := by
  by_cases hi : i = .transmit
  · subst hi
    obtain ⟨e, es, hp, rfl⟩ := execTransmit_cases he
    exact h.emitThen hb hheld hp
  · exact h.exec_of_ne_transmit hi hheld he

theorem State.Inv.step {s t : State} (h : s.Inv) (hs : step s = .next t) : t.Inv := by
  obtain ⟨hc, ⟨-, rfl⟩ | ⟨-, -, rfl⟩ | ⟨-, hb, i, hi, he⟩ | ⟨-, rfl⟩⟩ := step_cases hs
  · exact h.takeTurn.hostStep
  · exact h.takeTurn
  · exact h.takeTurn.exec (by simpa using hb) (by simpa using hi) he
  · exact inv_of_reset (by simpa using hc) rfl rfl rfl rfl rfl

/-- Settles O46: a turn keeps the invariant, the Host's by its access, the Engine's by its command, reset's because
it erases everything the invariant speaks of. -/
theorem stepKeepsTheInvariant : Obligations.StepKeepsTheInvariant := fun _ _ => State.Inv.step

/-- Settles O45: power-on has empty buffers, no command and idle lines, and `State.reset` is one power-on. -/
theorem powerOnMeetsTheInvariant : Obligations.PowerOnMeetsTheInvariant :=
  ⟨fun _ => powerOn_inv, powerOn_inv (by decide)⟩

end Sys2Proof.Machine
end

section
/-! PROOFS. 10_state.md: who changes what. Of each agent's step it is said once which fields it can change and why
(R22, R29, R35 to R40); a rule of the whole machine is then a case split over whose turn it is. -/

namespace Sys2Proof.Machine

/-! A pixel write and an access. -/

@[simp] theorem writePixel_result (s : State) (b : Buffer) (i : Nat) (c : Color) :
    (s.writePixel b i c).result = s.result := by obtain ⟨m, st, -, h⟩ := writePixel_frame s b i c; simp [h]

@[simp] theorem writePixel_latch (s : State) (b : Buffer) (i : Nat) (c : Color) :
    (s.writePixel b i c).latch = s.latch := by obtain ⟨m, st, -, h⟩ := writePixel_frame s b i c; simp [h]

@[simp] theorem writePixel_lines (s : State) (b : Buffer) (i : Nat) (c : Color) :
    (s.writePixel b i c).lines = s.lines := by obtain ⟨m, st, -, h⟩ := writePixel_frame s b i c; simp [h]

@[simp] theorem writePixel_trace (s : State) (b : Buffer) (i : Nat) (c : Color) :
    (s.writePixel b i c).trace = s.trace := by obtain ⟨m, st, -, h⟩ := writePixel_frame s b i c; simp [h]

@[simp] theorem writePixel_busy (s : State) (b : Buffer) (i : Nat) (c : Color) :
    (s.writePixel b i c).status.busy = s.status.busy := by
  obtain ⟨m, st, hb, h⟩ := writePixel_frame s b i c
  simp [h, hb]

theorem buffer_setBuffer_of_ne (s : State) {b b' : Buffer} (hb : b' ≠ b) (m : Memory) :
    (s.setBuffer b m).buffer b' = s.buffer b' := by
  cases b with
  | fg => cases b' with
    | fg => exact absurd rfl hb
    | bg => rfl
  | bg => cases b' with
    | fg => rfl
    | bg => exact absurd rfl hb

/-- A pixel write leaves the other buffer alone. -/
theorem writePixel_buffer_of_ne (s : State) {b b' : Buffer} (hb : b' ≠ b) (i : Nat) (c : Color) :
    (s.writePixel b i c).buffer b' = s.buffer b' := by
  obtain ⟨-, h⟩ | ⟨-, h⟩ := writePixel_cases s b i c
  · rw [h, buffer_setBuffer_of_ne s hb]
  · rw [h]; cases b' <;> rfl

/-- No access drives the wire or writes RESULT. -/
theorem access_frame (s : State) (t : Access) : (s.access t).1.result = s.result ∧
    (s.access t).1.lines = s.lines ∧ (s.access t).1.trace = s.trace := by
  obtain ⟨f, -, ha⟩ | ha | ⟨-, -, ⟨-, -, -, ha⟩ | ⟨-, ha⟩ | ha | ha | ha | ha | ⟨b, i, -, -, -, -, ha⟩⟩ :=
    access_state_cases s t
  all_goals simp [ha]

/-- An access keeps the latch and BUSY, unless it is the acceptance of a command (30_encoding.md R66). -/
theorem access_latch_busy (s : State) (t : Access) :
    ((s.access t).1.latch = s.latch ∧ (s.access t).1.status.busy = s.status.busy) ∨
    (s.status.busy = false ∧ (s.access t).1.status.busy = true ∧ t.kind = .write ∧ t.size = 4 ∧
      t.addr = 0x000 ∧ ∃ i, legalInstr s.cfg t.data = some i) := by
  obtain ⟨f, -, ha⟩ | ha | ⟨hk, hs, ⟨h0, hb, hv, ha⟩ | ⟨-, ha⟩ | ha | ha | ha | ha | ⟨b, i, -, -, -, -, ha⟩⟩ :=
    access_state_cases s t
  case inr.inr.inl => exact .inr ⟨hb, by simp [ha], hk, hs, h0, hv⟩
  all_goals exact .inl (by simp [ha])

/-- An access keeps a buffer, unless it is a write in its window while BUSY = 0 (20_memory.md R49 to R51). -/
theorem access_buffer (s : State) (t : Access) (b : Buffer) :
    (s.access t).1.buffer b = s.buffer b ∨
    (s.status.busy = false ∧ (b = .bg → s.cfg.hasBg = true) ∧ t.kind = .write ∧ t.size = 4 ∧
      b.base ≤ t.addr.toNat ∧ t.addr.toNat < b.base + 0x01000000) := by
  obtain ⟨f, -, ha⟩ | ha | ⟨hk, hs, ⟨-, -, -, ha⟩ | ⟨-, ha⟩ | ha | ha | ha | ha | ⟨b', i, hi, hlt, hbg, hb, ha⟩⟩ :=
    access_state_cases s t
  case inr.inr.inr.inr.inr.inr.inr.inr =>
    by_cases hbb : b = b'
    · subst hbb
      exact .inr ⟨hb, hbg, hk, hs, by omega, by omega⟩
    · exact .inl (ha ▸ writePixel_buffer_of_ne s hbb i _)
  all_goals exact .inl (by cases b <;> simp [ha])

/-! The Host's step: its access, of which a write is the write its program names. -/

theorem hostStep_access_cases (s : State) :
    (∃ x, s.hostStep = { s with host := x }) ∨
    ∃ t x, s.hostStep = { (s.access t).1 with host := x } ∧
      (t.kind = .write → ∃ p e, s.host.prog[s.host.pc]? = some (.write p t.size e) ∧
        t.addr = p.offsetIn s.host.regs ∧ t.data = e.eval s.host.regs) := by
  obtain h | ⟨p, n, e, x, hop, h⟩ | ⟨r, p, n, x, -, h⟩ := hostStep_cases s
  · exact .inl h
  · exact .inr ⟨_, x, h, fun _ => ⟨p, e, hop, rfl, rfl⟩⟩
  · exact .inr ⟨_, x, h, nofun⟩

theorem hostStep_frame (s : State) :
    s.hostStep.result = s.result ∧ s.hostStep.lines = s.lines ∧ s.hostStep.trace = s.trace := by
  obtain ⟨x, h⟩ | ⟨t, x, h, -⟩ := hostStep_access_cases s
  · rw [h]; exact ⟨rfl, rfl, rfl⟩
  · rw [h]; exact access_frame s t

@[simp] theorem hostStep_result (s : State) : s.hostStep.result = s.result := (hostStep_frame s).1
@[simp] theorem hostStep_lines (s : State) : s.hostStep.lines = s.lines := (hostStep_frame s).2.1
@[simp] theorem hostStep_trace (s : State) : s.hostStep.trace = s.trace := (hostStep_frame s).2.2

/-- A Host step keeps the latch and BUSY, unless it is the acceptance of a command (30_encoding.md R66). -/
theorem hostStep_latch_busy (s : State) :
    (s.hostStep.latch = s.latch ∧ s.hostStep.status.busy = s.status.busy) ∨
    (s.status.busy = false ∧ s.hostStep.status.busy = true ∧
      ∃ p e i, s.host.prog[s.host.pc]? = some (.write p 4 e) ∧ p.offsetIn s.host.regs = 0x000 ∧
        legalInstr s.cfg (e.eval s.host.regs) = some i) := by
  obtain ⟨x, h⟩ | ⟨t, x, h, hw⟩ := hostStep_access_cases s
  · rw [h]; exact .inl ⟨rfl, rfl⟩
  · rw [h]
    refine (access_latch_busy s t).imp_right fun ⟨hb, hb', hk, hs, h0, i, hi⟩ => ⟨hb, hb', ?_⟩
    obtain ⟨p, e, hop, ha, hd⟩ := hw hk
    exact ⟨p, e, i, hs ▸ hop, ha ▸ h0, hd ▸ hi⟩

/-- A Host step keeps a buffer, unless it writes in its window while BUSY = 0. -/
theorem hostStep_buffer (s : State) (b : Buffer) :
    s.hostStep.buffer b = s.buffer b ∨
    (s.status.busy = false ∧ (b = .bg → s.cfg.hasBg = true) ∧
      ∃ p e, s.host.prog[s.host.pc]? = some (.write p 4 e) ∧ b.base ≤ (p.offsetIn s.host.regs).toNat ∧
        (p.offsetIn s.host.regs).toNat < b.base + 0x01000000) := by
  obtain ⟨x, h⟩ | ⟨t, x, h, hw⟩ := hostStep_access_cases s
  · rw [h]; exact .inl (by cases b <;> rfl)
  · have hbuf : s.hostStep.buffer b = (s.access t).1.buffer b := by rw [h]; cases b <;> rfl
    rw [hbuf]
    refine (access_buffer s t b).imp_right fun ⟨hb, hbg, hk, hs, hlo, hhi⟩ => ⟨hb, hbg, ?_⟩
    obtain ⟨p, e, hop, ha, -⟩ := hw hk
    exact ⟨p, e, hs ▸ hop, ha ▸ hlo, ha ▸ hhi⟩

/-! The Engine's step: which command changes what. -/

section Engine

variable {s t : State} {i : Instr}

theorem exec_latch (he : exec i s = .next t) : t.latch = s.latch := by
  by_cases hi : i = .transmit
  · subst hi
    obtain ⟨e, es, -, rfl⟩ := execTransmit_cases he
    rw [emitThen_eq]
  · obtain ⟨fg, bg, r, st, hx, -⟩ := exec_of_ne_transmit s hi
    cases hx.symm.trans he
    rfl

/-- Only TRANSMIT drives the wire (10_state.md R39, R40). -/
theorem exec_wire (he : exec i s = .next t) (hi : i ≠ .transmit) : t.lines = s.lines ∧ t.trace = s.trace := by
  obtain ⟨fg, bg, r, st, hx, -⟩ := exec_of_ne_transmit s hi
  cases hx.symm.trans he
  exact ⟨rfl, rfl⟩

/-- Which commands write RESULT, FG and BG (10_state.md R29, R35, R36). -/
theorem exec_writes (he : exec i s = .next t) : (t.result ≠ s.result → i = .translate) ∧
    (t.fg ≠ s.fg → i ∈ [.setpix, .setpixxy, .clear, .setrange]) ∧ (t.bg ≠ s.bg → i = .clearbg) := by
  by_cases hi : i = .transmit
  · subst hi
    obtain ⟨e, es, -, rfl⟩ := execTransmit_cases he
    rw [emitThen_eq]
    exact ⟨fun h => absurd rfl h, fun h => absurd rfl h, fun h => absurd rfl h⟩
  · obtain ⟨fg, bg, r, st, hx, -, -, -, hresult, hbg, hfg⟩ := exec_of_ne_transmit s hi
    cases hx.symm.trans he
    exact ⟨hresult, hfg, hbg⟩

/-- A TRANSMIT step clears BUSY only when it emits the last event (45_transmit.md R99). -/
theorem exec_transmit_completes (he : exec .transmit s = .next t) (hb : s.status.busy = true)
    (ht : t.status.busy = false) : ∃ e, s.pendingEvents = [e] ∧ t.trace = s.trace ++ [e] := by
  obtain ⟨e, es, hp, rfl⟩ := execTransmit_cases he
  rw [emitThen_eq] at ht ⊢
  have hes : es = [] := by simpa [hb] using ht
  exact ⟨e, hes ▸ hp, rfl⟩

end Engine

/-! The whole machine. -/

/-- Settles O50: no access drives the wire, and of the commands only TRANSMIT does. -/
theorem wireChangesOnlyInTransmitOrReset : Obligations.WireChangesOnlyInTransmitOrReset := by
  intro s t h hne
  obtain ⟨-, ⟨-, rfl⟩ | ⟨-, -, rfl⟩ | ⟨hturn, hb, i, hi, he⟩ | ⟨hturn, -⟩⟩ := step_cases h
  · simp at hne
  · simp at hne
  · by_cases htx : i = .transmit
    · exact .inr ⟨hturn, hb, htx ▸ hi⟩
    · simp [exec_wire he htx] at hne
  · exact .inl hturn

/-- Settles O51: no access writes RESULT, and of the commands only TRANSLATE does. -/
theorem resultChangesOnlyInTranslateOrReset : Obligations.ResultChangesOnlyInTranslateOrReset := by
  intro s t h hne
  obtain ⟨-, ⟨-, rfl⟩ | ⟨-, -, rfl⟩ | ⟨hturn, hb, i, hi, he⟩ | ⟨hturn, -⟩⟩ := step_cases h
  · simp at hne
  · simp at hne
  · have htranslate : i = .translate := (exec_writes he).1 (by simpa using hne)
    exact .inr ⟨hturn, hb, htranslate ▸ hi⟩
  · exact .inl hturn

/-- Settles O52: no command writes the latch, and of the accesses only an acceptance does. -/
theorem latchChangesOnlyAtAcceptanceOrReset : Obligations.LatchChangesOnlyAtAcceptanceOrReset := by
  intro s t h hne
  obtain ⟨-, ⟨hturn, rfl⟩ | ⟨-, -, rfl⟩ | ⟨-, -, i, -, he⟩ | ⟨hturn, -⟩⟩ := step_cases h
  · obtain ⟨hl, -⟩ | ⟨hb, hb', -⟩ := hostStep_latch_busy s.takeTurn.2
    · simp [hl] at hne
    · exact .inr ⟨hturn, by simpa using hb, hb'⟩
  · simp at hne
  · simp [exec_latch he] at hne
  · exact .inl hturn

/-- Settles O53: of the Host's operations only an acceptance moves BUSY, and it sets it; the Engine and reset
only clear it. -/
theorem busyRisesAtAcceptanceAndFallsAtCompletion : Obligations.BusyRisesAtAcceptanceAndFallsAtCompletion := by
  intro s t h
  obtain ⟨-, ⟨hturn, rfl⟩ | ⟨-, -, rfl⟩ | ⟨hturn, hb, i, hi, he⟩ | ⟨hturn, rfl⟩⟩ := step_cases h
  · obtain ⟨-, hsame⟩ | ⟨hb, hb', p, e, i, hop, h0, hi⟩ := hostStep_latch_busy s.takeTurn.2
    · exact ⟨fun h0 h1 => by simp [hsame, h0] at h1, fun h1 h0 => by simp [hsame, h1] at h0⟩
    · simp only [takeTurn_status, takeTurn_host, takeTurn_cfg] at hb hop h0 hi
      exact ⟨fun _ _ => ⟨hturn, p, 4, e, i, hop, rfl, h0, hi⟩, by simp [hb]⟩
  · exact ⟨fun h0 h1 => by simp [h0] at h1, fun h1 h0 => by simp [h1] at h0⟩
  · refine ⟨by simp [hb], fun _ ht => .inr ⟨hturn, i, hi, ?_⟩⟩
    rintro rfl
    simpa using exec_transmit_completes he (by simpa using hb) ht
  · exact ⟨fun _ hrise => by simp [Status.atReset] at hrise, fun _ _ => .inl hturn⟩

/-- Settles O55: of the commands four write FG, and of the accesses a write in its window while BUSY = 0. -/
theorem foregroundWritePaths : Obligations.ForegroundWritePaths := by
  intro s t h hne
  obtain ⟨-, ⟨hturn, rfl⟩ | ⟨-, -, rfl⟩ | ⟨hturn, hb, i, hi, he⟩ | ⟨hturn, -⟩⟩ := step_cases h
  · obtain hsame | ⟨hb, -, p, e, hop, hlo, hhi⟩ := hostStep_buffer s.takeTurn.2 .fg
    · exact absurd (by simpa using hsame) hne
    · simp only [takeTurn_status, takeTurn_host] at hb hop hlo hhi
      exact .inr (.inr ⟨hturn, hb, p, e, hop, hlo, hhi⟩)
  · simp at hne
  · have hcmd : i ∈ [.setpix, .setpixxy, .clear, .setrange] := (exec_writes he).2.1 (by simpa using hne)
    exact .inr (.inl ⟨hturn, hb, hi ▸ List.mem_map_of_mem (f := some) hcmd⟩)
  · exact .inl hturn

/-- Settles O56: of the commands CLEARBG alone writes BG, and of the accesses a write in its window, which needs
a background and BUSY = 0. -/
theorem backgroundWritePaths : Obligations.BackgroundWritePaths := by
  intro s t h hne
  obtain ⟨-, ⟨hturn, rfl⟩ | ⟨-, -, rfl⟩ | ⟨hturn, hb, i, hi, he⟩ | ⟨hturn, -⟩⟩ := step_cases h
  · obtain hsame | ⟨hb, hbg, p, e, hop, hlo, hhi⟩ := hostStep_buffer s.takeTurn.2 .bg
    · exact absurd (by simpa using hsame) hne
    · simp only [takeTurn_status, takeTurn_host] at hb hop hlo hhi
      exact .inr (.inr ⟨hturn, hb, by simpa using hbg rfl, p, e, hop, hlo, hhi⟩)
  · simp at hne
  · have hcmd : i = .clearbg := (exec_writes he).2.2 (by simpa using hne)
    exact .inr (.inl ⟨hturn, hb, hcmd ▸ hi⟩)
  · exact .inl hturn

end Sys2Proof.Machine
end

section
/-! PROOFS. 20_memory.md: the memory map. An access outside the map only raises BUSERR (R44, R48); a window access is
one cell's read or pixel write while BUSY = 0 and raises COLL while BUSY = 1 (R49 to R51), from which follow the
read's harmlessness (R52), the repeated write (R53), and that the Host cannot disturb a command in flight. -/

namespace Sys2Proof.Machine

/-! A window access, by BUSY and kind (20_memory.md R49 to R51). -/

section Window

variable {s : State} {b : Buffer} {i : Nat}

theorem winAccess_of_busy (hb : s.status.busy = true) (k : AccessKind) (v : Word) :
    s.winAccess b k i v = (s.raise .coll, 0) := by
  simp [State.winAccess, hb]

theorem winAccess_read_of_idle (hb : s.status.busy = false) (v : Word) : s.winAccess b .read i v =
    (s, if i < s.cfg.n then colorWord (Memory.read i (s.buffer b)) else 0) := by
  simp [State.winAccess, hb]

theorem winAccess_write_of_idle (hb : s.status.busy = false) (v : Word) :
    s.winAccess b .write i v = (s.writePixel b i (wordColor v), 0) := by
  simp [State.winAccess, hb]

/-- Every aligned offset of a window is a cell's: its index is the distance from the base in words. -/
theorem exists_cell_of_window {a : Word} (hal : a.extractLsb' 0 2 = 0) (hlo : b.base ≤ a.toNat)
    (hhi : a.toNat < b.base + 0x01000000) : ∃ i, i < 2 ^ 22 ∧ a.toNat = b.base + 4 * i := by
  have hmod := (aligned_iff a).mp hal
  have hbase : b.base % 4 = 0 := by cases b <;> rfl
  exact ⟨(a.toNat - b.base) / 4, by omega, by omega⟩

/-- While BUSY = 1 the windows are closed: the access raises COLL, at every index (20_memory.md R51). -/
theorem access_window_of_busy (hb : s.status.busy = true) (hbg : b = .bg → s.cfg.hasBg = true) {a : Word}
    (hal : a.extractLsb' 0 2 = 0) (hlo : b.base ≤ a.toNat) (hhi : a.toNat < b.base + 0x01000000)
    (k : AccessKind) (v : Word) : s.access ⟨k, a, 4, v⟩ = (s.raise .coll, 0) := by
  obtain ⟨i, hi, ha⟩ := exists_cell_of_window hal hlo hhi
  rw [access_window s b rfl hbg hi ha, winAccess_of_busy hb]

end Window

/-- A cell keeps bits 23:0 of the word written (20_memory.md R49). -/
theorem wordColor_eq_extractLsb' (v : Word) : wordColor v = v.extractLsb' 0 24 :=
  BitVec.setWidth_eq_extractLsb' (by decide)

/-! Doing an update twice (20_memory.md R53). -/

theorem raise_raise (s : State) (f : StickyFlag) : (s.raise f).raise f = s.raise f := by
  simp only [State.raise, Status.set_set]

theorem clearFlags_clearFlags (s : State) (v : Word) : (s.clearFlags v).clearFlags v = s.clearFlags v := by
  simp only [State.clearFlags, Status.clearBy_clearBy]

@[simp] theorem writePixel_cfg (s : State) (b : Buffer) (i : Nat) (c : Color) :
    (s.writePixel b i c).cfg = s.cfg := by obtain ⟨m, st, -, h⟩ := writePixel_frame s b i c; simp [h]

theorem writePixel_writePixel (s : State) {b : Buffer} (hwf : Memory.wf (s.buffer b) = true) (i : Nat)
    (c : Color) : (s.writePixel b i c).writePixel b i c = s.writePixel b i c := by
  obtain ⟨hi, h⟩ | ⟨hi, h⟩ := writePixel_cases s b i c
  · rw [h, writePixel_of_lt c (by simpa using hi), setBuffer_setBuffer, buffer_setBuffer, Memory.write_write i c hwf]
  · rw [h, writePixel_of_le c (by simpa using hi), raise_raise]

/-- CMD is the only register at which a repeated write can differ: the second one meets BUSY = 1. -/
theorem regWrite_regWrite (s : State) (v : Word) {r : RegName} (hr : r ≠ .cmd) :
    (s.regWrite v r).regWrite v r = s.regWrite v r := by
  cases r with
  | cmd => exact absurd rfl hr
  | status => exact clearFlags_clearFlags s v
  | idx | idx2 | color | xy | result | cfg | geom | npix | clkdiv | settle => rfl

/-- A window write leaves what the next access to the window depends on: the configuration. -/
theorem winAccess_write_cfg (s : State) (b : Buffer) (i : Nat) (v : Word) :
    (s.winAccess b .write i v).1.cfg = s.cfg := by
  cases hb : s.status.busy with
  | true => rw [winAccess_of_busy hb, raise_cfg]
  | false => rw [winAccess_write_of_idle hb, writePixel_cfg]

theorem winAccess_write_write (s : State) {b : Buffer} (hwf : Memory.wf (s.buffer b) = true) (i : Nat)
    (v : Word) : (s.winAccess b .write i v).1.winAccess b .write i v = s.winAccess b .write i v := by
  cases hb : s.status.busy with
  | true => rw [winAccess_of_busy hb, winAccess_of_busy (by simpa using hb), raise_raise]
  | false =>
    rw [winAccess_write_of_idle hb, winAccess_write_of_idle (by simpa using hb), writePixel_writePixel s hwf]

/-- With canonical buffers, a write anywhere but at CMD does the same when it is made again. -/
theorem access_write_write {s : State} (hwf : ∀ b, Memory.wf (s.buffer b) = true) {t : Access}
    (hk : t.kind = .write) (hcmd : t.addr ≠ 0x000) : (s.access t).1.access t = s.access t := by
  obtain h | ⟨r, hs, hr, -⟩ | ⟨b, i, hs, ha, hi, hbg, h⟩ := access_cases s t
  · rw [h s rfl, h (s.raise .buserr) rfl, raise_raise]
  · obtain ⟨k, a, n, v⟩ := t
    subst hs hr hk
    rw [access_write_reg, access_write_reg, regWrite_regWrite s v fun hr => hcmd (by rw [hr]; rfl)]
  · rw [h, hk, access_window _ b hs (by simpa [winAccess_write_cfg] using hbg) hi ha, hk,
      winAccess_write_write s (hwf b)]

/-! A command in flight (20_memory.md R51, 70_reset_and_hazards.md R130, R132). -/

/-- Only an acceptance resets the sequencer, and none happens while BUSY = 1. -/
theorem access_seq_of_busy {s : State} (hb : s.status.busy = true) (t : Access) :
    (s.access t).1.seq = s.seq := by
  obtain ⟨f, -, ha⟩ | ha | ⟨-, -, ⟨-, hidle, -⟩ | ⟨-, ha⟩ | ha | ha | ha | ha | ⟨b, i, -, -, -, hidle, -⟩⟩ :=
    access_state_cases s t
  case inr.inr.inl | inr.inr.inr.inr.inr.inr.inr.inr => simp [hb] at hidle
  all_goals simp [ha]

theorem access_buffer_of_busy {s : State} (hb : s.status.busy = true) (t : Access) (b : Buffer) :
    (s.access t).1.buffer b = s.buffer b :=
  (access_buffer s t b).resolve_right fun ⟨hidle, _⟩ => by simp [hb] at hidle

theorem hostStep_seq_of_busy {s : State} (hb : s.status.busy = true) : s.hostStep.seq = s.seq := by
  obtain ⟨x, h⟩ | ⟨t, x, h, -⟩ := hostStep_access_cases s
  · rw [h]
  · rw [h]; exact access_seq_of_busy hb t

theorem hostStep_buffer_of_busy {s : State} (hb : s.status.busy = true) (b : Buffer) :
    s.hostStep.buffer b = s.buffer b :=
  (hostStep_buffer s b).resolve_right fun ⟨hidle, _⟩ => by simp [hb] at hidle

theorem hostStep_latch_busy_of_busy {s : State} (hb : s.status.busy = true) :
    s.hostStep.latch = s.latch ∧ s.hostStep.status.busy = s.status.busy :=
  (hostStep_latch_busy s).resolve_right fun ⟨hidle, _⟩ => by simp [hb] at hidle

/-! The obligations. -/

/-- Settles O7: the first check of an access (20_memory.md R43). -/
theorem misalignedOrNonWordAccessOnlySetsBuserr : Obligations.MisalignedOrNonWordAccessOnlySetsBuserr :=
  fun _ _ _ _ _ h => access_buserr h

/-- Settles O8: each of the three ranges lies outside the registers and outside every window that exists. -/
theorem unmappedAccessOnlySetsBuserr : Obligations.UnmappedAccessOnlySetsBuserr := by
  intro s k a v _ hrange
  refine access_unmapped (t := ⟨k, a, 4, v⟩) (show 0x30 ≤ a.toNat by omega)
    (show a.toNat < 0x01000000 ∨ 0x02000000 ≤ a.toNat by omega) fun hbg => ?_
  obtain ⟨-, hlt⟩ | ⟨hnone, -⟩ | hge := hrange
  · exact .inl (show a.toNat < 0x02000000 by omega)
  · simp [hbg] at hnone
  · exact .inr hge

/-- Settles O13: the offset is cell `i`'s, so the access is the cell's, and a write is a pixel write. -/
theorem windowAccessReadsAndWritesOneCell : Obligations.WindowAccessReadsAndWritesOneCell := by
  intro s b i v hbg hi hwf a
  have ha : a.toNat = b.base + 4 * i := by
    cases b <;> simp only [a, Buffer.base, BitVec.toNat_ofNat, reduceIte, reduceCtorEq] <;> omega
  have cell (k : AccessKind) : s.access ⟨k, a, 4, v⟩ = s.winAccess b k i v := access_window s b rfl hbg hi ha
  simp only [cell]
  split <;> rename_i hb
  · exact fun k => winAccess_of_busy hb k v
  · rw [Bool.not_eq_true] at hb
    rw [winAccess_read_of_idle hb, winAccess_write_of_idle hb]
    refine ⟨rfl, fun hlt => ⟨_, writePixel_of_lt _ hlt, fun j => ?_⟩, fun hle => writePixel_of_le _ hle⟩
    rw [Memory.read_write j i _ hwf, wordColor_eq_extractLsb']

/-- Settles O14: the two windows are the ones of `Buffer.base`, and an access writes a buffer only while
BUSY = 0. -/
theorem windowsClosedWhileBusy : Obligations.WindowsClosedWhileBusy := by
  refine fun s hb => ⟨fun k a v hal hrange => ?_, fun t =>
    ⟨access_buffer_of_busy hb t .fg, access_buffer_of_busy hb t .bg⟩⟩
  obtain ⟨hlo, hhi⟩ | ⟨hbg, hlo, hhi⟩ := hrange
  · exact access_window_of_busy (b := .fg) hb nofun hal hlo hhi k v
  · exact access_window_of_busy (b := .bg) hb (fun _ => hbg) hal hlo hhi k v

/-- Settles O15: outside the map it raises BUSERR, a register read changes nothing, a window read raises COLL or
changes nothing. -/
theorem readChangesNothingButARaisedFlag : Obligations.ReadChangesNothingButARaisedFlag := by
  intro s a n v
  obtain h | ⟨r, -, -, h⟩ | ⟨b, i, -, -, -, -, h⟩ := access_cases s ⟨.read, a, n, v⟩
  · exact .inr (.inl (h s rfl))
  · exact .inl (by rw [h]; rfl)
  · cases hb : s.status.busy with
    | true => exact .inr (.inr (by rw [h, winAccess_of_busy hb]; rfl))
    | false => exact .inl (by rw [h, winAccess_read_of_idle hb])

/-- Settles O16: none of the offsets is CMD's. -/
theorem operandStatusAndWindowWritesAreIdempotent : Obligations.OperandStatusAndWindowWritesAreIdempotent := by
  intro s a v hfg hbg ha
  have hcmd : a ≠ 0x000 := by
    rintro rfl
    revert ha
    decide
  rw [access_write_write (fun b => by cases b <;> [exact hfg; exact hbg]) rfl hcmd]

/-- Settles O57: a Host step is at most one access, and while BUSY = 1 that is neither an acceptance nor a window
write. -/
theorem hostStepLeavesACommandInFlightAlone : Obligations.HostStepLeavesACommandInFlightAlone := by
  intro s hb
  obtain ⟨hlatch, hbusy⟩ := hostStep_latch_busy_of_busy hb
  exact ⟨hostStep_buffer_of_busy hb .fg, hostStep_buffer_of_busy hb .bg, hlatch, hostStep_seq_of_busy hb,
    hostStep_result s, hostStep_lines s, hostStep_trace s, hbusy.trans hb⟩

end Sys2Proof.Machine
end

section
/-! PROOFS. 30_encoding.md: the command word (R62 to R69), the Engine's step (R67) and the Host's program (R70 to
R79). The encoding rests on one fact: a word with RSV = 0 is its fields OP and A, and the opcode map answers a command
exactly on the fields of that command's word. -/

namespace Sys2Proof

/-! The command word (30_encoding.md R63, R65, R68). -/

/-- The fields of every command's word, from the laws stated per command. -/
theorem commandWordFields (i : Instr) : Laws.CommandWordFields.Statement i := by
  cases i with
  | nop => exact Laws.CommandWordFields.nop
  | setpix => exact Laws.CommandWordFields.setpix
  | setpixxy => exact Laws.CommandWordFields.setpixxy
  | translate => exact Laws.CommandWordFields.translate
  | clear => exact Laws.CommandWordFields.clear
  | clearbg => exact Laws.CommandWordFields.clearbg
  | setrange => exact Laws.CommandWordFields.setrange
  | transmit => exact Laws.CommandWordFields.transmit

theorem decode_encode (i : Instr) : decode (encode i) = .ok i := by cases i <;> rfl

theorem decode_of_cmdRsv {v : Word} (h : cmdRsv v = 0) : decode v = decodeFields (cmdOp v).toNat (cmdA v) := by
  rw [decode, if_neg (not_not_intro h)]

/-- What the opcode map can answer: a command, on the fields of that command's word, or an error, on fields that no
command has (30_encoding.md R68). -/
theorem decodeFields_cases (op : Nat) (a : Bool) :
    (∃ i, decodeFields op a = .ok i ∧ op = (cmdOp (encode i)).toNat ∧ a = cmdA (encode i)) ∨
    (∃ e, decodeFields op a = .error e ∧ (7 ≤ op ∨ a = true ∧ op ≠ 1)) := by
  rcases Nat.lt_or_ge op 7 with hlt | hge
  · cases a with
    | false =>
      left
      interval_cases op
      exacts [⟨.nop, rfl, rfl, rfl⟩, ⟨.setpix, rfl, rfl, rfl⟩, ⟨.translate, rfl, rfl, rfl⟩,
        ⟨.clear, rfl, rfl, rfl⟩, ⟨.clearbg, rfl, rfl, rfl⟩, ⟨.setrange, rfl, rfl, rfl⟩,
        ⟨.transmit, rfl, rfl, rfl⟩]
    | true =>
      by_cases h1 : op = 1
      · exact .inl ⟨.setpixxy, h1 ▸ rfl, h1, rfl⟩
      · refine .inr ⟨.addressMode, ?_, .inr ⟨rfl, h1⟩⟩
        interval_cases op
        exacts [rfl, absurd rfl h1, rfl, rfl, rfl, rfl, rfl]
  · obtain ⟨k, rfl⟩ := Nat.exists_eq_add_of_le' hge
    exact .inr ⟨.reservedOpcode, by simp [decodeFields], .inl hge⟩

/-- Two words with the reserved bits 0 and the same OP and A are equal. -/
theorem word_ext_of_fields {v w : Word} (hv : cmdRsv v = 0) (hw : cmdRsv w = 0) (hop : cmdOp v = cmdOp w)
    (ha : cmdA v = cmdA w) : v = w := by
  rw [← Machine.word_of_fields hv, ← Machine.word_of_fields hw, hop, ha]

/-- A word decodes to a command exactly when it is the command's word (30_encoding.md R65, R68). -/
theorem decode_eq_ok_iff {v : Word} {i : Instr} : decode v = .ok i ↔ v = encode i := by
  constructor
  · intro h
    have hr := Machine.cmdRsv_of_decode h
    rw [decode_of_cmdRsv hr] at h
    obtain ⟨j, hj, hop, ha⟩ | ⟨e, he, -⟩ := decodeFields_cases (cmdOp v).toNat (cmdA v)
    · obtain rfl : j = i := by simpa [hj] using h
      obtain ⟨hrsv, -, -⟩ := commandWordFields j
      exact word_ext_of_fields hr hrsv (BitVec.eq_of_toNat_eq hop) ha
    · cases he.symm.trans h
  · rintro rfl
    exact decode_encode i

/-- No command but CLEARBG asks anything of the configuration (30_encoding.md R69). -/
theorem Instr.wellFormed_of_ne_clearbg {i : Instr} (h : i ≠ .clearbg) (c : Config) : i.wellFormed c = true := by
  cases i with
  | clearbg => exact absurd rfl h
  | nop | setpix | setpixxy | translate | clear | setrange | transmit => rfl

end Sys2Proof

namespace Sys2Proof.Machine

/-! Which words are legal (30_encoding.md R66, R68, R69). -/

theorem legalInstr_encode (c : Config) (i : Instr) :
    legalInstr c (encode i) = if i.wellFormed c then some i else none := by
  rw [legalInstr, decode_encode]

theorem legalInstr_of_error {v : Word} {e : DecodeError} (h : decode v = .error e) (c : Config) :
    legalInstr c v = none := by
  rw [legalInstr, h]

/-- The acceptance test of 30_encoding.md R66, on the fields of the word. -/
theorem legalInstr_eq_none_iff {c : Config} {v : Word} : legalInstr c v = none ↔
    cmdRsv v ≠ 0 ∨ 7 ≤ (cmdOp v).toNat ∨ (cmdA v = true ∧ (cmdOp v).toNat ≠ 1) ∨
      ((cmdOp v).toNat = 4 ∧ c.hasBg = false) := by
  cases hd : decode v with
  | ok i =>
    obtain rfl := decode_eq_ok_iff.mp hd
    rw [legalInstr_encode]
    cases i with
    | clearbg => cases hbg : c.hasBg <;> simp [Instr.wellFormed, hbg, encode, cmdRsv, cmdOp, cmdA]
    | nop | setpix | setpixxy | translate | clear | setrange | transmit =>
      simp [Instr.wellFormed, encode, cmdRsv, cmdOp, cmdA]
  | error e =>
    refine iff_of_true (legalInstr_of_error hd c) (or_iff_not_imp_left.mpr fun hr => ?_)
    rw [decode_of_cmdRsv (not_not.mp hr)] at hd
    obtain ⟨i, hi, -⟩ | ⟨-, -, hop | ha⟩ := decodeFields_cases (cmdOp v).toNat (cmdA v)
    · cases hi.symm.trans hd
    · exact .inl hop
    · exact .inr (.inl ha)

/-- What a CMD write does, with its two refusals (30_encoding.md R66). -/
theorem cmdWrite_eq (s : State) (v : Word) : s.cmdWrite v =
    if s.status.busy = true then s.raise .ovf
    else if legalInstr s.cfg v = none then s.raise .ill else s.accept v := by
  obtain ⟨hb, h⟩ | ⟨hb, hl, h⟩ | ⟨hb, ⟨i, hl⟩, h⟩ := cmdWrite_cases s v
  · rw [h, if_pos hb]
  · rw [h, if_neg (by simp [hb]), if_pos hl]
  · rw [h, if_neg (by simp [hb]), if_neg (by simp [hl])]

theorem access_write_cmd (s : State) (v : Word) : (s.access ⟨.write, 0x000, 4, v⟩).1 = s.cmdWrite v :=
  congrArg Prod.fst (access_write_reg s .cmd v)

/-! The Engine's step (30_encoding.md R67). -/

theorem engineStep_of_idle {s : State} (h : s.status.busy = false) : engineStep s = .next s := by
  rw [engineStep, if_neg (by simp [h])]

theorem engineStep_of_held {s : State} {i : Instr} (hb : s.status.busy = true) (hi : s.heldInstr = some i) :
    engineStep s = exec i s := by
  rw [engineStep, if_pos hb, hi]

/-! The Host's step (30_encoding.md R70 to R72). -/

theorem hostStep_of_prog {s : State} {o : HostOp Nat} (h : s.host.prog[s.host.pc]? = some o) :
    s.hostStep = s.hostOp o := by
  rw [State.hostStep, h]

/-- `R h, NAME` reads the register into `h` and leaves the block alone. -/
theorem hostStep_readReg {s : State} {h : HReg} {r : RegName}
    (ho : s.host.prog[s.host.pc]? = some (.read h (.reg r) 4)) :
    s.hostStep = { s with host := s.host.put h (s.regRead r) (s.host.pc + 1) } := by
  rw [hostStep_of_prog ho]
  simp only [State.hostOp, Place.offsetIn, access_read_reg]

/-- The mask of POLL leaves BUSY (30_encoding.md R72, 10_state.md R22). -/
theorem Status.toWord_and_one (st : Status) : st.toWord &&& 1 = if st.busy then 1 else 0 := by
  calc st.toWord &&& 1
    _ = (BitVec.ofBool (st.toWord.getLsbD 0)).setWidth 32 := BitVec.and_one_eq_setWidth_ofBool_getLsbD
    _ = (BitVec.ofBool st.busy).setWidth 32 := by rw [st.getLsbD_toWord, if_pos rfl]
    _ = if st.busy then 1 else 0 := by cases st.busy <;> rfl

/-! The obligations. -/

/-- Settles O1: a word is its fields, and the opcode map answers a command on the fields of its word alone. -/
theorem decodeAcceptsExactlyTheEncodedWords : Obligations.DecodeAcceptsExactlyTheEncodedWords :=
  fun _ _ => decode_eq_ok_iff

/-- Settles O3: the acceptance test on the fields is the model's `legalInstr`. -/
theorem cmdWriteFollowsAcceptancePseudocode : Obligations.CmdWriteFollowsAcceptancePseudocode := by
  intro s v
  rw [access_write_cmd, cmdWrite_eq]
  exact if_congr Iff.rfl rfl (if_congr legalInstr_eq_none_iff rfl rfl)

/-- Settles O4: a word that is no command's decodes to none, so none is legal. -/
theorem illegalWordSetsOnlyIll : Obligations.IllegalWordSetsOnlyIll := by
  intro s v hv
  have hnone : legalInstr s.cfg v = none := by
    rw [Option.eq_none_iff_forall_ne_some]
    intro i hi
    obtain rfl := decode_eq_ok_iff.mp (legalInstr_eq_some.mp hi).1
    exact hv (by cases i <;> decide)
  rw [access_write_cmd, cmdWrite_eq, if_pos hnone]
  rfl

/-- Settles O59: the three operations read STATUS, mask BUSY and branch on it. -/
theorem pollLoopsExactlyWhileBusy : Obligations.PollLoopsExactlyWhileBusy := by
  rintro s p rfl hread hand hbnz
  have h1 : s.hostStep = { s with host := s.host.put .h7 s.status.toWord (s.host.pc + 1) } := hostStep_readReg hread
  have h2 : s.hostStep.hostStep =
      { s with host := s.host.put .h7 (if s.status.busy then 1 else 0) (s.host.pc + 2) } := by
    rw [h1, hostStep_of_prog hand, ← Status.toWord_and_one]
    rfl
  rw [h2, hostStep_of_prog hbnz]
  cases s.status.busy <;> rfl

/-- Settles O2: each of the words is its command's. -/
theorem opcodeTableWordsDecode : Obligations.OpcodeTableWordsDecode :=
  ⟨decode_encode .nop, decode_encode .setpix, decode_encode .setpixxy, decode_encode .translate,
    decode_encode .clear, decode_encode .clearbg, decode_encode .setrange, decode_encode .transmit⟩

/-- Settles O5: the word 4 is CLEARBG's, and only CLEARBG asks for a background. -/
theorem onlyClearbgLegalityDependsOnConfiguration : Obligations.OnlyClearbgLegalityDependsOnConfiguration := by
  refine ⟨fun c => ?_, fun c d v hv => Option.ext fun i => ?_⟩
  · have h4 : legalInstr c 0x00000004 = if c.hasBg then some .clearbg else none := legalInstr_encode c .clearbg
    rw [h4]
    cases c.hasBg <;> simp
  · rw [legalInstr_eq_some, legalInstr_eq_some]
    refine and_congr_right fun hi => ?_
    have hne : i ≠ .clearbg := by
      rintro rfl
      exact hv (decode_eq_ok_iff.mp hi)
    rw [Instr.wellFormed_of_ne_clearbg hne, Instr.wellFormed_of_ne_clearbg hne]

/-- Settles O40: every command but TRANSMIT ends in the step that performs it. -/
theorem engineStepPerformsTheHeldCommand : Obligations.EngineStepPerformsTheHeldCommand := by
  refine fun s => ⟨engineStep_of_idle, fun i => engineStep_of_held, fun i hi => ?_⟩
  obtain ⟨fg, bg, r, st, h, hbusy, -⟩ := exec_of_ne_transmit s hi
  exact ⟨_, h, hbusy⟩

/-- Settles O41: the turn is the Engine's, and the command it holds is the one decoded from the latch. -/
theorem stepRunsTheDecodedCommand : Obligations.StepRunsTheDecodedCommand := by
  intro s i hc hb hd hw
  have hheld : s.heldInstr = some i := legalInstr_eq_some.mpr ⟨hd, hw⟩
  refine ⟨fun h => ?_, fun ts h => ?_⟩
  · rw [step_of_nil hc h, if_pos hb]
    exact engineStep_of_held hb hheld
  · rw [step_of_cons hc h]
    exact engineStep_of_held hb hheld

/-- Settles O58: one operation at the Host's place, by its form. -/
theorem hostOperationsFollowTheNotation : Obligations.HostOperationsFollowTheNotation := by
  intro s o ho
  cases o with
  | bnz h t => simp only [hostStep_of_prog ho, State.hostOp, HostState.goto, ne_eq, ite_not]
  | bltu a b t => simp only [hostStep_of_prog ho, State.hostOp, HostState.goto, BitVec.lt_def]
  | write | read | mov | add | sub | and | jump | halt => exact hostStep_of_prog ho

/-- Settles O60: the expansions are lists written out, and the command words are `encode`'s. -/
theorem pseudoInstructionsExpand : Obligations.PseudoInstructionsExpand := by
  intro p i c s e r g b x y h
  exact ⟨rfl, rfl, rfl, rfl, rfl, rfl, rfl, rfl, rfl, rfl⟩

end Sys2Proof.Machine
end

section
/-! PROOFS. 40_buffer_grid.md: colours, translation, and the buffer and grid commands (R80 to R93). A packed colour is
its channels at their places in a number. Translation is the serpentine formula on exact integers unless its
subtraction wraps; on the grid it is the start of the column plus an offset in the column, and the offset is its own
inverse. The commands rest on what a pixel write, a clear and a range write do to STATUS and to each cell. -/

namespace Sys2Proof.Machine

/-! Colours (40_buffer_grid.md R80). -/

/-- The channels do not overlap, so joining them adds them. -/
theorem toNat_pack (r g b : Byte) : (pack r g b).toNat = r.toNat * 65536 + g.toNat * 256 + b.toNat := by
  have hr : r.toNat <<< 16 < 2 ^ 24 := by omega
  have hg : g.toNat <<< 8 < 2 ^ 24 := by omega
  have hgb : g.toNat <<< 8 + b.toNat < 2 ^ 16 := by omega
  calc (pack r g b).toNat
    _ = (r.toNat <<< 16 % 2 ^ 24 ||| g.toNat <<< 8 % 2 ^ 24) ||| b.toNat := by
      simp only [pack, BitVec.toNat_or, BitVec.toNat_shiftLeft,
        BitVec.toNat_setWidth_of_le (show 8 ≤ 24 by decide)]
    _ = r.toNat <<< 16 ||| (g.toNat <<< 8 ||| b.toNat) := by
      rw [Nat.mod_eq_of_lt hr, Nat.mod_eq_of_lt hg, Nat.or_assoc]
    _ = r.toNat <<< 16 + (g.toNat <<< 8 + b.toNat) := by
      rw [← Nat.shiftLeft_add_eq_or_of_lt b.isLt, ← Nat.shiftLeft_add_eq_or_of_lt hgb]
    _ = r.toNat * 65536 + g.toNat * 256 + b.toNat := by rw [Nat.shiftLeft_eq, Nat.shiftLeft_eq, Nat.add_assoc]

theorem toNat_colorWord (c : Color) : (colorWord c).toNat = c.toNat := by
  rw [colorWord, BitVec.toNat_setWidth_of_le (by decide)]

theorem toNat_channel (c : Color) (k : Nat) : (c.extractLsb' k 8).toNat = c.toNat / 2 ^ k % 256 := by
  rw [BitVec.extractLsb'_toNat, Nat.shiftRight_eq_div_pow]

theorem red_pack (r g b : Byte) : red (pack r g b) = r :=
  BitVec.eq_of_toNat_eq (by rw [red, toNat_channel, toNat_pack]; omega)

theorem green_pack (r g b : Byte) : green (pack r g b) = g :=
  BitVec.eq_of_toNat_eq (by rw [green, toNat_channel, toNat_pack]; omega)

theorem blue_pack (r g b : Byte) : blue (pack r g b) = b :=
  BitVec.eq_of_toNat_eq (by rw [blue, toNat_channel, toNat_pack]; omega)

theorem pack_red_green_blue (c : Color) : pack (red c) (green c) (blue c) = c :=
  BitVec.eq_of_toNat_eq (by rw [toNat_pack, red, green, blue]; simp only [toNat_channel]; omega)

/-! The clamp (40_buffer_grid.md R82). -/

theorem toNat_clampCoord (clamp : Bool) (limit : Nat) (v : Coord) :
    (clampCoord clamp limit v).toNat = if clamp = true ∧ limit ≤ v.toNat then 0 else v.toNat := by
  simp only [clampCoord, Bool.and_eq_true, decide_eq_true_eq]
  split <;> rfl

theorem clampCoord_of_lt {limit : Nat} {v : Coord} (h : v.toNat < limit) (clamp : Bool) :
    clampCoord clamp limit v = v := by
  simp [clampCoord, h]

theorem clampCoord_of_unclamped (limit : Nat) (v : Coord) : clampCoord false limit v = v := by
  simp [clampCoord]

theorem clampCoord_lt {clamp : Bool} (hc : clamp = true) {limit : Nat} (h : 1 ≤ limit) (v : Coord) :
    (clampCoord clamp limit v).toNat < limit := by
  rw [toNat_clampCoord]
  split
  · exact h
  · rename_i hv
    exact not_le.mp fun hle => hv ⟨hc, hle⟩

/-! The formula on exact integers (40_buffer_grid.md R81, R83). -/

theorem getLsbD_zero_coord (x : Coord) : (x.setWidth 32).getLsbD 0 = decide (x.toNat % 2 = 1) := by
  simp [BitVec.getLsbD, Nat.testBit_zero]

/-- With height 1 the formula adds or subtracts (40_buffer_grid.md R85). -/
theorem serpentine_one (x y : Word) : serpentine 1#32 x y = if x.getLsbD 0 then x - y else x + y := by
  rw [serpentine, BitVec.mul_one, BitVec.mul_one, BitVec.add_sub_cancel]

section Serpentine

variable {h : Nat} {x y : Coord}

theorem toNat_serpentine_even (hh : h ≤ 65535) (hx : x.toNat % 2 = 0) :
    (serpentine (BitVec.ofNat 32 h) (x.setWidth 32) (y.setWidth 32)).toNat = x.toNat * h + y.toNat := by
  have hmul := Nat.mul_le_mul (show x.toNat ≤ 65535 by omega) hh
  rw [serpentine, getLsbD_zero_coord, if_neg (by simp [hx])]
  simp only [BitVec.toNat_add, BitVec.toNat_mul, BitVec.toNat_setWidth, BitVec.toNat_ofNat]
  rw [Nat.mod_eq_of_lt (show x.toNat < 2 ^ 32 by omega), Nat.mod_eq_of_lt (show h < 2 ^ 32 by omega)]
  omega

/-- In an odd column the formula is taken modulo `2^32`, and only its subtraction can wrap. -/
theorem toNat_serpentine_odd (hh : h ≤ 65535) (hx : x.toNat % 2 = 1) :
    (serpentine (BitVec.ofNat 32 h) (x.setWidth 32) (y.setWidth 32)).toNat =
      (2 ^ 32 + (x.toNat + 1) * h - 1 - y.toNat) % 2 ^ 32 := by
  have hmul := Nat.mul_le_mul (show x.toNat + 1 ≤ 65536 by omega) hh
  rw [serpentine, getLsbD_zero_coord, if_pos (by simp [hx])]
  simp only [BitVec.toNat_sub, BitVec.toNat_add, BitVec.toNat_mul, BitVec.toNat_setWidth, BitVec.toNat_ofNat]
  rw [Nat.mod_eq_of_lt (show x.toNat < 2 ^ 32 by omega), Nat.mod_eq_of_lt (show h < 2 ^ 32 by omega),
    show (1 : Word).toNat = 1 from rfl, Nat.mod_eq_of_lt (show x.toNat + 1 < 2 ^ 32 by omega)]
  omega

end Serpentine

/-! The grid (40_buffer_grid.md R84). -/

/-- Where in its column of `h` cells the cell `(x, y)` stands: even columns run down, odd columns up. -/
def columnOffset (h x y : Nat) : Nat := if x % 2 = 0 then y else h - 1 - y

theorem columnOffset_lt {h y : Nat} (x : Nat) (hy : y < h) : columnOffset h x y < h := by
  unfold columnOffset
  split <;> omega

/-- In one column, the offset is its own inverse. -/
theorem columnOffset_columnOffset {h y : Nat} (x : Nat) (hy : y < h) :
    columnOffset h x (columnOffset h x y) = y := by
  unfold columnOffset
  split <;> omega

/-- An index divided by the height is its column. -/
theorem mul_add_div_of_lt {h x o : Nat} (ho : o < h) : (x * h + o) / h = x := by
  rw [Nat.mul_comm, Nat.mul_add_div (by omega), Nat.div_eq_of_lt ho, Nat.add_zero]

theorem column_add_lt_n {c : Config} {x o : Nat} (hx : x < c.width) (ho : o < c.height) : x * c.height + o < c.n :=
  calc x * c.height + o
    _ < (x + 1) * c.height := by rw [Nat.succ_mul]; omega
    _ ≤ c.n := Nat.mul_le_mul_right _ hx

/-- Inside the height, the subtraction of an odd column does not wrap. -/
theorem toNat_serpentine_of_lt {h : Nat} {x y : Coord} (hh : h ≤ 65535) (hy : y.toNat < h) :
    (serpentine (BitVec.ofNat 32 h) (x.setWidth 32) (y.setWidth 32)).toNat =
      x.toNat * h + columnOffset h x.toNat y.toNat := by
  have hmul := Nat.mul_le_mul (show x.toNat + 1 ≤ 65536 by omega) hh
  rcases Nat.mod_two_eq_zero_or_one x.toNat with hx | hx
  · rw [toNat_serpentine_even hh hx, columnOffset, if_pos hx]
  · rw [toNat_serpentine_odd hh hx, columnOffset, if_neg (by omega)]
    rw [Nat.succ_mul] at hmul ⊢
    omega

/-- On the grid, translation is the start of the column plus the offset in it, clamped or not. -/
theorem toNat_translateXY_of_lt {c : Config} (hc : c.wellFormed = true) {x y : Coord} (hx : x.toNat < c.width)
    (hy : y.toNat < c.height) :
    (translateXY c x y).toNat = x.toNat * c.height + columnOffset c.height x.toNat y.toNat := by
  obtain ⟨-, ⟨-, hh⟩, -⟩ := c.wellFormed_iff.mp hc
  rw [translateXY, clampCoord_of_lt hx, clampCoord_of_lt hy, toNat_serpentine_of_lt hh hy]

theorem translateXY_lt_n {c : Config} (hc : c.wellFormed = true) {x y : Coord} (hx : x.toNat < c.width)
    (hy : y.toNat < c.height) : (translateXY c x y).toNat < c.n := by
  rw [toNat_translateXY_of_lt hc hx hy]
  exact column_add_lt_n hx (columnOffset_lt _ hy)

/-- The column is the index divided by the height, and the offset in it the remainder. -/
theorem translateXY_injective_on_grid {c : Config} (hc : c.wellFormed = true) {x y x' y' : Coord}
    (hx : x.toNat < c.width) (hy : y.toNat < c.height) (hx' : x'.toNat < c.width) (hy' : y'.toNat < c.height)
    (h : translateXY c x y = translateXY c x' y') : x = x' ∧ y = y' := by
  have hidx := congrArg BitVec.toNat h
  rw [toNat_translateXY_of_lt hc hx hy, toNat_translateXY_of_lt hc hx' hy'] at hidx
  have hcol : x.toNat = x'.toNat := by
    simpa only [mul_add_div_of_lt (columnOffset_lt _ hy), mul_add_div_of_lt (columnOffset_lt _ hy')] using
      congrArg (· / c.height) hidx
  rw [hcol] at hidx
  have hrow : y.toNat = y'.toNat := by
    simpa only [columnOffset_columnOffset _ hy, columnOffset_columnOffset _ hy'] using
      congrArg (columnOffset c.height x'.toNat) (Nat.add_left_cancel hidx)
  exact ⟨BitVec.eq_of_toNat_eq hcol, BitVec.eq_of_toNat_eq hrow⟩

theorem exists_translateXY_eq {c : Config} (hc : c.wellFormed = true) {k : Nat} (hk : k < c.n) :
    ∃ x y : Coord, x.toNat < c.width ∧ y.toNat < c.height ∧ (translateXY c x y).toNat = k := by
  obtain ⟨⟨-, hw⟩, ⟨hpos, hh⟩, -⟩ := c.wellFormed_iff.mp hc
  have hcol : k / c.height < c.width := Nat.div_lt_of_lt_mul (by rwa [Nat.mul_comm])
  have hoff : k % c.height < c.height := Nat.mod_lt _ hpos
  have hrow := columnOffset_lt (k / c.height) hoff
  have hx : (BitVec.ofNat 16 (k / c.height)).toNat = k / c.height := by
    rw [BitVec.toNat_ofNat, Nat.mod_eq_of_lt (by omega)]
  have hy : (BitVec.ofNat 16 (columnOffset c.height (k / c.height) (k % c.height))).toNat =
      columnOffset c.height (k / c.height) (k % c.height) := by
    rw [BitVec.toNat_ofNat, Nat.mod_eq_of_lt (by omega)]
  refine ⟨_, _, hx.trans_lt hcol, hy.trans_lt hrow, ?_⟩
  rw [toNat_translateXY_of_lt hc (hx.trans_lt hcol) (hy.trans_lt hrow), hx, hy, columnOffset_columnOffset _ hoff,
    Nat.div_add_mod']

/-! The commands: what a pixel write, a clear and a range write do (40_buffer_grid.md R86, R91 to R93). -/

theorem Status.ite_set_drop (st : Status) (p : Prop) [Decidable p] :
    (if p then st.set .drop else st) = { st with drop := st.drop || decide p } := by
  split <;> rename_i hp <;> simp [hp, Status.set]

/-- A pixel write touches STATUS in DROP alone, and raises it exactly from N on. -/
theorem writePixel_status (s : State) (b : Buffer) (i : Nat) (c : Color) : (s.writePixel b i c).status =
    { s.status with drop := s.status.drop || decide (s.cfg.n ≤ i) } := by
  rw [← Status.ite_set_drop]
  obtain ⟨hi, h⟩ | ⟨hi, h⟩ := writePixel_cases s b i c
  · rw [h, setBuffer_status, if_neg (by omega)]
  · rw [h, raise_status, if_pos hi]

theorem writePixel_buffer_of_le {s : State} (b : Buffer) {i : Nat} (c : Color) (h : s.cfg.n ≤ i) :
    (s.writePixel b i c).buffer b = s.buffer b := by
  rw [writePixel_of_le c h]
  cases b <;> rfl

theorem read_writePixel {s : State} {b : Buffer} (hwf : Memory.wf (s.buffer b) = true) (i j : Nat) (c : Color) :
    Memory.read j ((s.writePixel b i c).buffer b) =
      if j = i ∧ i < s.cfg.n then c else Memory.read j (s.buffer b) := by
  obtain ⟨hi, h⟩ | ⟨hi, h⟩ := writePixel_cases s b i c
  · simp [h, hi, Memory.read_write j i c hwf]
  · rw [writePixel_buffer_of_le b c hi, if_neg (by omega)]

theorem sameButFgStatus_writePixel (s : State) (i : Nat) (c : Color) :
    s.SameButFgStatus (s.writePixel .fg i c).complete := by
  obtain ⟨m, st, -, h⟩ := writePixel_frame s .fg i c
  rw [h]
  rfl

/-- The step of a command that writes one foreground cell, SETPIX or SETPIXXY. -/
theorem pixelCommand_effect {s : State} (hwf : Memory.wf s.fg = true) (i : Nat) (c : Color) :
    s.SameButFgStatus (s.writePixel .fg i c).complete ∧
    (s.writePixel .fg i c).complete.status =
      { s.status with busy := false, drop := s.status.drop || decide (s.cfg.n ≤ i) } ∧
    (s.cfg.n ≤ i → (s.writePixel .fg i c).complete.fg = s.fg) ∧
    (∀ j, Memory.read j (s.writePixel .fg i c).complete.fg =
      if j = i ∧ i < s.cfg.n then c else Memory.read j s.fg) :=
  ⟨sameButFgStatus_writePixel s i c, by rw [complete_status, writePixel_status],
    writePixel_buffer_of_le .fg c, fun j => read_writePixel (b := .fg) hwf i j c⟩

theorem read_clearBuffer {s : State} {b : Buffer} (hwf : Memory.wf (s.buffer b) = true) (j : Nat) :
    Memory.read j ((s.clearBuffer b).buffer b) = if j < s.cfg.n then 0 else Memory.read j (s.buffer b) := by
  rw [State.clearBuffer, buffer_setBuffer, Memory.read_fill j 0 0 _ hwf]
  exact if_congr (by omega) rfl rfl

/-- A range that ends below N is filled. -/
theorem writeRange_of_lt {s : State} (i : Nat) {j : Nat} (c : Color) (h : j < s.cfg.n) :
    s.writeRange i j c = s.setBuffer .fg (Memory.fill i c (j + 1 - i) s.fg) := by
  rw [State.writeRange, if_neg (by omega), Nat.min_eq_left (by omega)]

/-- A range that reaches N is filled below N, and raises DROP. -/
theorem writeRange_of_le {s : State} (i : Nat) {j : Nat} (c : Color) (h : s.cfg.n ≤ j) :
    s.writeRange i j c = (s.setBuffer .fg (Memory.fill i c (s.cfg.n - i) s.fg)).raise .drop := by
  rw [State.writeRange, if_pos h, Nat.min_eq_right (by omega)]

theorem fill_succ_of_lt {i k : Nat} (h : i < k) (c : Color) (m : Memory) :
    Memory.fill (i + 1) c (k - (i + 1)) (Memory.write i c m) = Memory.fill i c (k - i) m := by
  rw [show k - i = k - (i + 1) + 1 by omega, Memory.fill]

/-- A range write is a pixel write at its start, then the write of the rest of the range. -/
theorem writePixel_writeRange (s : State) {i j : Nat} (hij : i ≤ j) (c : Color) :
    (s.writePixel .fg i c).writeRange (i + 1) j c = s.writeRange i j c := by
  obtain ⟨hi, h⟩ | ⟨hi, h⟩ := writePixel_cases s .fg i c
  · rw [h]
    rcases Nat.lt_or_ge j s.cfg.n with hj | hj
    · rw [writeRange_of_lt _ c hj, writeRange_of_lt _ c (by simpa using hj), setBuffer_setBuffer,
        setBuffer_fg_fg, buffer_fg, fill_succ_of_lt (by omega)]
    · rw [writeRange_of_le _ c hj, writeRange_of_le _ c (by simpa using hj), setBuffer_setBuffer,
        setBuffer_fg_fg, buffer_fg, setBuffer_cfg, fill_succ_of_lt hi]
  · have hj : s.cfg.n ≤ j := hi.trans hij
    rw [h, writeRange_of_le _ c hj, writeRange_of_le _ c (by simpa using hj), raise_cfg,
      Nat.sub_eq_zero_of_le hi, Nat.sub_eq_zero_of_le (hi.trans (Nat.le_succ i))]
    exact raise_raise s .drop

theorem writeRange_self (s : State) (i : Nat) (c : Color) : s.writeRange i i c = s.writePixel .fg i c := by
  rcases Nat.lt_or_ge i s.cfg.n with hi | hi
  · rw [writeRange_of_lt i c hi, writePixel_of_lt c hi, Nat.add_sub_cancel_left]
    rfl
  · rw [writeRange_of_le i c hi, writePixel_of_le c hi, Nat.sub_eq_zero_of_le hi]
    rfl

/-- The loop of 40_buffer_grid.md R93 over at least one index is one range write. -/
theorem pixelLoop_eq_writeRange (c : Color) (k i : Nat) (s : State) :
    pixelLoop c (k + 1) i s = s.writeRange i (i + k) c := by
  induction k generalizing i s with
  | zero => exact (writeRange_self s i c).symm
  | succ k ih =>
    rw [pixelLoop, ih, show i + 1 + k = i + (k + 1) by omega]
    exact writePixel_writeRange s (by omega) c

/-- SETRANGE with its bounds in order (40_buffer_grid.md R93). -/
theorem exec_setrange_of_le {s : State} (h : s.latch.idx.toNat ≤ s.latch.idx2.toNat) :
    exec .setrange s = .next (s.writeRange s.latch.idx.toNat s.latch.idx2.toNat s.latch.color).complete :=
  if_pos h

/-- SETRANGE with its bounds reversed (40_buffer_grid.md R93). -/
theorem exec_setrange_of_lt {s : State} (h : s.latch.idx2.toNat < s.latch.idx.toNat) :
    exec .setrange s = .next s.complete :=
  if_neg (by omega)

theorem sameButFgStatus_writeRange (s : State) (i j : Nat) (c : Color) :
    s.SameButFgStatus (s.writeRange i j c).complete := by
  obtain ⟨m, st, -, h⟩ := writeRange_frame s i j c
  rw [h]
  rfl

theorem read_writeRange {s : State} (hwf : Memory.wf s.fg = true) (i j k : Nat) (c : Color) :
    Memory.read k (s.writeRange i j c).fg =
      if i ≤ k ∧ k ≤ j ∧ k < s.cfg.n then c else Memory.read k s.fg := by
  rw [writeRange_fg, Memory.read_fill k i c _ hwf]
  exact if_congr (by omega) rfl rfl

/-! The obligations. -/

/-- Settles O18: the packed number is the channels at their places, so each byte of it is a channel. -/
theorem packAndUnpackAreInverse : Obligations.PackAndUnpackAreInverse :=
  ⟨fun r g b => ⟨toNat_pack r g b, toNat_colorWord _, red_pack r g b, green_pack r g b, blue_pack r g b⟩,
    pack_red_green_blue⟩

/-- Settles O19: the coordinates are the clamped ones, and only the subtraction of an odd column can wrap. -/
theorem translateIsExactOrOutOfRange : Obligations.TranslateIsExactOrOutOfRange := by
  intro c x16 y16 hc x y r
  obtain ⟨-, ⟨hpos, hh⟩, hn, -⟩ := c.wellFormed_iff.mp hc
  have hx : (clampCoord c.clamp c.width x16).toNat = x := toNat_clampCoord _ _ _
  have hy : (clampCoord c.clamp c.height y16).toNat = y := toNat_clampCoord _ _ _
  split
  · rename_i heven
    rw [← hx, ← hy]
    exact toNat_serpentine_even hh (hx ▸ heven)
  · rename_i hodd
    have hr : r = (2 ^ 32 + (x + 1) * c.height - 1 - y) % 2 ^ 32 := by
      rw [← hx, ← hy]
      exact toNat_serpentine_odd hh (by omega)
    have hxlt : x < 65536 := hx ▸ BitVec.isLt _
    have hylt : y < 65536 := hy ▸ BitVec.isLt _
    have hmax := Nat.mul_le_mul (show x + 1 ≤ 65536 by omega) hh
    have hmin := Nat.mul_le_mul (show 2 ≤ x + 1 by omega) hpos
    rw [← Config.n] at hn
    split <;> omega

/-- Settles O20: on the grid an index is a column's start plus an offset below the height. -/
theorem translateIsABijectionOfTheGrid : Obligations.TranslateIsABijectionOfTheGrid := by
  intro c hc
  refine ⟨fun x y hx hy => ⟨?_, ?_, translateXY_lt_n hc hx hy⟩,
    fun x y x' y' hx hy hx' hy' h => translateXY_injective_on_grid hc hx hy hx' hy' h,
    fun k hk => exists_translateXY_eq hc hk⟩
  all_goals
    have hoff := columnOffset_lt x.toNat hy
    rw [toNat_translateXY_of_lt hc hx hy]
    omega

/-- Settles O21: the clamp puts the coordinates on the grid. -/
theorem clampedTranslateIsAlwaysInRange : Obligations.ClampedTranslateIsAlwaysInRange := by
  intro c x y hc hclamp
  obtain ⟨⟨hw, -⟩, ⟨hpos, hh⟩, -⟩ := c.wellFormed_iff.mp hc
  have hy := clampCoord_lt hclamp hpos y
  rw [translateXY, toNat_serpentine_of_lt hh hy]
  exact column_add_lt_n (clampCoord_lt hclamp hw x) (columnOffset_lt _ hy)

/-- Settles O22: with height 1 the formula's product is `x`, or `x + 1` in an odd column. -/
theorem stripTranslateIsDirectIndexing : Obligations.StripTranslateIsDirectIndexing := by
  intro c x y hheight hclamp
  have general (v : Coord) : translateXY c x v =
      if x.toNat % 2 = 0 then x.setWidth 32 + v.setWidth 32 else x.setWidth 32 - v.setWidth 32 := by
    rw [translateXY, hclamp, hheight, clampCoord_of_unclamped, clampCoord_of_unclamped]
    rw [serpentine_one, getLsbD_zero_coord]
    rcases Nat.mod_two_eq_zero_or_one x.toNat with hx | hx <;> simp [hx]
  have hzero : translateXY c x 0 = x.setWidth 32 := by
    rw [general 0]
    split
    · exact BitVec.add_zero _
    · exact BitVec.sub_zero _
  refine ⟨?_, general y⟩
  rw [hzero, BitVec.toNat_setWidth_of_le (by decide)]

/-- Settles O24: SETPIX is a pixel write at `L.idx`. -/
theorem setpixWritesOneCellOrDrops : Obligations.SetpixWritesOneCellOrDrops :=
  fun s hwf => ⟨_, rfl, pixelCommand_effect hwf s.latch.idx.toNat s.latch.color⟩

/-- Settles O25: SETPIXXY is a pixel write at the translated index. -/
theorem setpixxyWritesTheTranslatedCellOrDrops : Obligations.SetpixxyWritesTheTranslatedCellOrDrops :=
  fun s hwf => ⟨_, rfl, pixelCommand_effect hwf (translateXY s.cfg s.latch.x s.latch.y).toNat s.latch.color⟩

/-- Settles O27: CLEAR clears FG. -/
theorem clearZeroesTheForeground : Obligations.ClearZeroesTheForeground :=
  fun _ hwf => ⟨_, rfl, rfl, rfl, read_clearBuffer (b := .fg) hwf⟩

/-- Settles O28: CLEARBG clears BG, and without a background its word is not legal. -/
theorem clearbgZeroesTheBackground : Obligations.ClearbgZeroesTheBackground := by
  refine ⟨fun s hwf => ⟨_, rfl, rfl, rfl, read_clearBuffer (b := .bg) hwf⟩, fun s hbg hb => ?_⟩
  have hnone : legalInstr s.cfg 0x00000004 = none := by
    have h4 := legalInstr_encode s.cfg .clearbg
    rwa [if_neg (by simp [Instr.wellFormed, hbg])] at h4
  rw [access_write_cmd, cmdWrite_eq, if_neg (by simp [hb]), if_pos hnone]
  rfl

/-- Settles O29: a range write, or with reversed bounds nothing. -/
theorem setrangeFillsTheInclusiveRange : Obligations.SetrangeFillsTheInclusiveRange := by
  intro s hwf
  rcases Nat.lt_or_ge s.latch.idx2.toNat s.latch.idx.toNat with hrev | hle
  · refine ⟨_, exec_setrange_of_lt hrev, rfl, ?_, fun _ => rfl, fun j => ?_⟩
    · simp [Nat.not_le.mpr hrev]
    · rw [complete_fg, if_neg (by omega)]
  · refine ⟨_, exec_setrange_of_le hle, sameButFgStatus_writeRange s _ _ _, ?_, fun hrev => by omega,
      fun j => read_writeRange hwf _ _ j _⟩
    rw [complete_status, writeRange_status, Status.ite_set_drop]
    simp [hle]

/-- Settles O30: the loop is one range write. -/
theorem setrangeIsTheLoopOfPixelWrites : Obligations.SetrangeIsTheLoopOfPixelWrites := by
  intro s
  split
  · rename_i hle
    obtain ⟨k, hk⟩ := Nat.exists_eq_add_of_le hle
    rw [exec_setrange_of_le hle, hk, show s.latch.idx.toNat + k + 1 - s.latch.idx.toNat = k + 1 by omega,
      pixelLoop_eq_writeRange]
  · exact exec_setrange_of_lt (by omega)

/-- Settles O23: the word is NOP's, and a CMD write while BUSY = 1 raises OVF. -/
theorem nopOnlyClearsBusy : Obligations.NopOnlyClearsBusy := by
  refine ⟨decode_encode .nop, fun _ => rfl, fun s hb => ?_⟩
  rw [access_write_cmd, cmdWrite_eq, if_pos hb]
  rfl

/-- Settles O26: TRANSLATE's step is this update. -/
theorem translateWritesResultAlone : Obligations.TranslateWritesResultAlone := fun _ => rfl

end Sys2Proof.Machine
end

section
/-! PROOFS. 45_transmit.md: TRANSMIT and the wire (R95 to R106). The Engine side rests on one fact, that a step of a
TRANSMIT under way only shortens the list of pending events. The pin side rests on two: whole events leave the lines
where Emit leaves them, and in PERIPH mode every event ends with CLK low; so what the string samples, and when DAT may
change, is read off event by event, in any frame and in any mode. -/

namespace Sys2Proof.Machine

/-! The frame (45_transmit.md R96, R98). -/

/-- In a concatenation of blocks of one length, the place `m * p + k` is place `k` of block `p`. -/
theorem getElem?_flatMap_of_length {α β : Type} {f : α → List β} {m : Nat} (hf : ∀ a, (f a).length = m)
    (l : List α) (p : Nat) {k : Nat} (hk : k < m) :
    (l.flatMap f)[m * p + k]? = l[p]?.bind fun a => (f a)[k]? := by
  induction l generalizing p with
  | nil => simp
  | cons a l ih =>
    rw [List.flatMap_cons]
    cases p with
    | zero => simp [List.getElem?_append_left (hf a ▸ hk)]
    | succ p =>
      have hplace : m * (p + 1) + k = (f a).length + (m * p + k) := by rw [hf a, Nat.mul_succ]; omega
      rw [hplace, List.getElem?_append_right (Nat.le_add_right ..), Nat.add_sub_cancel_left, ih]
      rfl

theorem getElem?_colorBits (v : Color) {k : Nat} (hk : k < 24) : (colorBits v)[k]? = some (v.getLsbD (23 - k)) := by
  simp [colorBits, hk]

theorem getElem?_frameBits {c : Config} (fg bg : Memory) {p k : Nat} (hp : p < c.n) (hk : k < 24) :
    (frameBits c fg bg)[24 * p + k]? = some ((txValue c fg bg p).getLsbD (23 - k)) := by
  rw [frameBits, getElem?_flatMap_of_length (fun _ => length_colorBits _) _ p hk, List.getElem?_range hp]
  exact getElem?_colorBits _ hk

theorem frameEvents_eq_ite (c : Config) (fg bg : Memory) : frameEvents c fg bg =
    if c.mode = .manual then [.settle] ++ (frameBits c fg bg).map .bit ++ [.settle]
    else if c.frame = true then [.frmLow] ++ (frameBits c fg bg).map .bit ++ [.frmHigh]
    else (frameBits c fg bg).map .bit := by
  unfold frameEvents
  split <;> simp [*]

/-- The bit an event carries. -/
def WireEvent.dataBit? : WireEvent → Option Bool
  | .bit b => some b
  | .settle | .frmLow | .frmHigh | .reset => none

/-- The framing of a mode carries no data. -/
theorem filterMap_dataBit?_frameEvents (c : Config) (fg bg : Memory) :
    (frameEvents c fg bg).filterMap WireEvent.dataBit? = frameBits c fg bg := by
  have hbits : ((frameBits c fg bg).map WireEvent.bit).filterMap WireEvent.dataBit? = frameBits c fg bg := by
    rw [List.filterMap_map]
    exact List.filterMap_some
  unfold frameEvents
  split <;> simp [List.filterMap_cons, WireEvent.dataBit?, hbits]

/-! TRANSMIT under way (45_transmit.md R99). -/

theorem pendingEvents_of_none {s : State} (h : s.seq = none) : s.pendingEvents = frameEvents s.cfg s.fg s.bg := by
  rw [State.pendingEvents, h]

theorem pendingEvents_of_some {s : State} {es : List WireEvent} (h : s.seq = some es) : s.pendingEvents = es := by
  rw [State.pendingEvents, h]

theorem pendingEvents_ne_nil {s : State} (hc : s.cfg.wellFormed = true) (hs : s.seq ≠ some []) :
    s.pendingEvents ≠ [] := by
  cases hq : s.seq with
  | none => exact pendingEvents_of_none hq ▸ frameEvents_ne_nil s.fg s.bg (n_ne_zero hc)
  | some es => exact pendingEvents_of_some hq ▸ fun h => hs (h ▸ hq)

/-- The step of an event that is not the last. -/
theorem engineStep_transmit_cons {s : State} (hb : s.status.busy = true) (hh : s.heldInstr = some .transmit)
    {e : WireEvent} {es : List WireEvent} (hp : s.pendingEvents = e :: es) (hes : es ≠ []) :
    engineStep s = .next { s.emit e with seq := some es } := by
  rw [engineStep_of_held hb hh, execTransmit_of_pending hp]
  cases es with
  | nil => exact absurd rfl hes
  | cons => rfl

/-- The step of the last event. -/
theorem engineStep_transmit_last {s : State} (hb : s.status.busy = true) (hh : s.heldInstr = some .transmit)
    {e : WireEvent} (hp : s.pendingEvents = [e]) :
    engineStep s = .next { s.emit e with seq := none }.complete := by
  rw [engineStep_of_held hb hh, execTransmit_of_pending hp]
  rfl

theorem engineRun_succ {s t : State} (h : engineStep s = .next t) (k : Nat) :
    engineRun (k + 1) s = engineRun k t := by
  rw [engineRun, h]

/-- Before its last event a TRANSMIT has sent as many events as it made steps, and is BUSY. -/
theorem engineRun_transmit_of_lt {s : State} (hb : s.status.busy = true) (hh : s.heldInstr = some .transmit)
    {k : Nat} (hk : k < s.pendingEvents.length) :
    ∃ t, engineRun k s = .next t ∧ t.status.busy = true ∧ t.trace = s.trace ++ s.pendingEvents.take k := by
  induction k generalizing s with
  | zero => exact ⟨s, rfl, hb, by simp⟩
  | succ k ih =>
    obtain ⟨e, es, hp⟩ := List.exists_cons_of_length_pos (Nat.zero_lt_of_lt hk)
    have hlen : k < es.length := by simpa [hp] using hk
    have hstep := engineStep_transmit_cons hb hh hp (List.ne_nil_of_length_pos (Nat.zero_lt_of_lt hlen))
    obtain ⟨t, hrun, hbusy, htrace⟩ := ih (s := { s.emit e with seq := some es }) hb hh hlen
    refine ⟨t, (engineRun_succ hstep k).trans hrun, hbusy, htrace.trans ?_⟩
    simp [hp, pendingEvents_of_some]

/-- With its last event a TRANSMIT has sent all that was pending, and is done. -/
theorem engineRun_transmit {s : State} (hb : s.status.busy = true) (hh : s.heldInstr = some .transmit)
    {es : List WireEvent} (hp : s.pendingEvents = es) (hes : es ≠ []) :
    engineRun es.length s = .next { s with
      status := { s.status with busy := false }, seq := none
      trace := s.trace ++ es, lines := es.foldl (linesAfter s.cfg) s.lines } := by
  induction es generalizing s with
  | nil => exact absurd rfl hes
  | cons e es ih =>
    by_cases hlast : es = []
    · subst hlast
      exact engineRun_succ (engineStep_transmit_last hb hh hp) 0
    · have hstep := engineStep_transmit_cons hb hh hp hlast
      rw [List.length_cons, engineRun_succ hstep, ih (s := { s.emit e with seq := some es }) hb hh rfl hlast]
      simp

/-! The pins and the lines (45_transmit.md R97, R101 to R104). -/

theorem foldl_drive_pinActions (c : Config) (lead trail : Nat) (e : WireEvent) (l : Lines) :
    (pinActions c lead trail e).foldl drive l = linesAfter c l e := by
  cases e with
  | bit b => cases hm : c.mode <;> simp [pinActions, linesAfter, drive, hm]
  | settle | frmLow | frmHigh | reset => rfl

/-- In PERIPH mode CLK is low between events (45_transmit.md R97). -/
theorem clk_linesAfter {c : Config} {l : Lines} (hl : c.mode = .periph → l.clk = false) (e : WireEvent) :
    c.mode = .periph → (linesAfter c l e).clk = false := by
  intro hm
  cases e with
  | bit b => simp [linesAfter, hm]
  | settle | reset => rfl
  | frmLow | frmHigh => exact hl hm

/-- The idle cycles before an event `k` data bits into its frame (45_transmit.md R103). -/
def gapBefore (c : Config) (k : Nat) : WireEvent → List PinAction
  | .bit _ => byteGapBefore c k
  | _ => []

/-- How many data bits of its frame are sent after an event, `k` before it. -/
def bitsSentAfter (k : Nat) : WireEvent → Nat
  | .bit _ => k + 1
  | _ => k

theorem waveform_cons (c : Config) (lead trail k : Nat) (e : WireEvent) (es : List WireEvent) :
    waveform c lead trail k (e :: es) =
      gapBefore c k e ++ (pinActions c lead trail e ++ waveform c lead trail (bitsSentAfter k e) es) := by
  cases e with
  | bit b => exact List.append_assoc ..
  | settle | frmLow | frmHigh | reset => rfl

/-- Idle cycles are one wait or none. -/
theorem gapBefore_cases (c : Config) (k : Nat) (e : WireEvent) :
    gapBefore c k e = [] ∨ gapBefore c k e = [.hold c.byteGap] := by
  cases e with
  | bit b => exact (ite_eq_or_eq _ _ _).symm
  | settle | frmLow | frmHigh | reset => exact .inl rfl

/-! What the string samples (45_transmit.md R105). -/

theorem sampled_append (l : Lines) (ps qs : List PinAction) :
    sampled l (ps ++ qs) = sampled l ps ++ sampled (ps.foldl drive l) qs := by
  induction ps generalizing l with
  | nil => rfl
  | cons p ps ih => simp only [List.cons_append, sampled, List.foldl_cons, ih]; split <;> rfl

theorem sampled_gapBefore_append (l : Lines) (c : Config) (k : Nat) (e : WireEvent) (ps : List PinAction) :
    sampled l (gapBefore c k e ++ ps) = sampled l ps := by
  obtain h | h := gapBefore_cases c k e <;> simp [h, sampled, drive]

/-- CLK rises once in a data bit's event, with the bit on DAT, and in no other event. -/
theorem sampled_pinActions {c : Config} {l : Lines} (hl : c.mode = .periph → l.clk = false) (lead trail : Nat)
    (e : WireEvent) : sampled l (pinActions c lead trail e) = e.dataBit?.toList := by
  cases e with
  | bit b =>
    cases hm : c.mode with
    | periph => simp [pinActions, hm, sampled, drive, hl hm, WireEvent.dataBit?]
    | manual => simp [pinActions, hm, sampled, drive, WireEvent.dataBit?]
  | settle | frmLow | frmHigh | reset => simp [pinActions, sampled, drive, WireEvent.dataBit?]

theorem sampled_waveform {c : Config} {l : Lines} (hl : c.mode = .periph → l.clk = false) (lead trail k : Nat)
    (es : List WireEvent) :
    sampled l (waveform c lead trail k es) = es.filterMap WireEvent.dataBit? := by
  induction es generalizing l k with
  | nil => rfl
  | cons e es ih =>
    rw [waveform_cons, sampled_gapBefore_append, sampled_append, sampled_pinActions hl, foldl_drive_pinActions,
      ih (clk_linesAfter hl e)]
    cases h : e.dataBit? <;> simp [h]

/-! When DAT is driven (45_transmit.md R101, R103). -/

theorem datSteady_append (l : Lines) (ps qs : List PinAction) :
    datSteady l (ps ++ qs) = (datSteady l ps && datSteady (ps.foldl drive l) qs) := by
  induction ps generalizing l with
  | nil => rfl
  | cons p ps ih => cases p <;> simp [datSteady, ih, Bool.and_assoc]

theorem datSteady_gapBefore_append (l : Lines) (c : Config) (k : Nat) (e : WireEvent) (ps : List PinAction) :
    datSteady l (gapBefore c k e ++ ps) = datSteady l ps := by
  obtain h | h := gapBefore_cases c k e <;> simp [h, datSteady, drive]

/-- An event drives DAT after it has driven CLK low, or in PERIPH mode while CLK is still low. -/
theorem datSteady_pinActions {c : Config} {l : Lines} (hl : c.mode = .periph → l.clk = false) (lead trail : Nat)
    (e : WireEvent) : datSteady l (pinActions c lead trail e) = true := by
  cases e with
  | bit b =>
    cases hm : c.mode with
    | periph => simp [pinActions, hm, datSteady, hl hm]
    | manual => simp [pinActions, hm, datSteady, drive]
  | settle | frmLow | frmHigh | reset => simp [pinActions, datSteady, drive]

theorem datSteady_waveform {c : Config} {l : Lines} (hl : c.mode = .periph → l.clk = false) (lead trail k : Nat)
    (es : List WireEvent) : datSteady l (waveform c lead trail k es) = true := by
  induction es generalizing l k with
  | nil => rfl
  | cons e es ih =>
    rw [waveform_cons, datSteady_gapBefore_append, datSteady_append, datSteady_pinActions hl,
      foldl_drive_pinActions, ih (clk_linesAfter hl e)]
    rfl

/-! The cycles of a frame (45_transmit.md R106). -/

theorem cycles_append (ps qs : List PinAction) : cycles (ps ++ qs) = cycles ps + cycles qs := by
  induction ps with
  | nil => simp [cycles]
  | cons p ps ih => cases p <;> simp [cycles, ih, Nat.add_assoc]

/-- The cycles of one gap between bytes: MANUAL mode has none. -/
def gapCycles (c : Config) : Nat := if c.mode = .manual then 0 else c.byteGap

/-- `(k - 1) / 8` gaps lie before data bit `k - 1`, and one more before bit `k` when it opens a new byte. -/
theorem cycles_byteGapBefore (c : Config) (k : Nat) :
    cycles (byteGapBefore c k) + (k - 1) / 8 * gapCycles c = k / 8 * gapCycles c := by
  cases hm : c.mode with
  | manual => simp [byteGapBefore, gapCycles, hm, cycles]
  | periph =>
    by_cases hk : k ≠ 0 ∧ k % 8 = 0
    · have hcount : k / 8 = (k - 1) / 8 + 1 := by omega
      simp [byteGapBefore, gapCycles, hm, hk, cycles, hcount, Nat.add_mul, Nat.add_comm]
    · have hcount : k / 8 = (k - 1) / 8 := by omega
      simp [byteGapBefore, hk, cycles, hcount]

theorem cycles_pinActions_bit (c : Config) (lead trail : Nat) (b : Bool) :
    cycles (pinActions c lead trail (.bit b)) = 2 * c.clkdiv := by
  cases hm : c.mode <;> simp [pinActions, hm, cycles, Nat.two_mul]

theorem cycles_waveform_bit_cons (c : Config) (lead trail k : Nat) (b : Bool) (es : List WireEvent) :
    cycles (waveform c lead trail k (.bit b :: es)) =
      cycles (byteGapBefore c k) + (2 * c.clkdiv + cycles (waveform c lead trail (k + 1) es)) := by
  rw [waveform_cons, cycles_append, cycles_append, cycles_pinActions_bit]
  rfl

theorem cycles_waveform_settle_cons (c : Config) (lead trail k : Nat) (es : List WireEvent) :
    cycles (waveform c lead trail k (.settle :: es)) = c.settle + cycles (waveform c lead trail k es) := rfl

theorem cycles_waveform_frmLow_cons (c : Config) (lead trail k : Nat) (es : List WireEvent) :
    cycles (waveform c lead trail k (.frmLow :: es)) = lead + cycles (waveform c lead trail k es) := rfl

theorem cycles_waveform_frmHigh_cons (c : Config) (lead trail k : Nat) (es : List WireEvent) :
    cycles (waveform c lead trail k (.frmHigh :: es)) = trail + cycles (waveform c lead trail k es) := rfl

/-- The cycles from data bit `k` of a frame to the end of `es`, plus those of the gaps already behind it. -/
theorem cycles_waveform_bits (c : Config) (lead trail k : Nat) (bits : List Bool) (es : List WireEvent) :
    cycles (waveform c lead trail k (bits.map .bit ++ es)) + (k - 1) / 8 * gapCycles c =
      2 * bits.length * c.clkdiv + (k + bits.length - 1) / 8 * gapCycles c
        + cycles (waveform c lead trail (k + bits.length) es) := by
  induction bits generalizing k with
  | nil => simp; omega
  | cons b bits ih =>
    have hgap := cycles_byteGapBefore c k
    have hrest := ih (k + 1)
    have hend : k + 1 + bits.length = k + (bits.length + 1) := by omega
    rw [Nat.add_sub_cancel, hend] at hrest
    rw [List.map_cons, List.cons_append, cycles_waveform_bit_cons, List.length_cons]
    linarith

/-- The cycles of a frame's data bits and of what follows them. -/
theorem cycles_waveform_frameBits (c : Config) (fg bg : Memory) (lead trail : Nat) (es : List WireEvent) :
    cycles (waveform c lead trail 0 ((frameBits c fg bg).map .bit ++ es)) =
      48 * c.n * c.clkdiv + (3 * c.n - 1) * gapCycles c
        + cycles (waveform c lead trail (24 * c.n) es) := by
  have h := cycles_waveform_bits c lead trail 0 (frameBits c fg bg) es
  have hgaps : (0 + 24 * c.n - 1) / 8 = 3 * c.n - 1 := by omega
  rw [length_frameBits, hgaps, Nat.zero_add, ← Nat.mul_assoc] at h
  simpa using h

/-! The obligations. -/

/-- Settles O31: a step of TRANSMIT is `emitThen` of the first pending event. -/
theorem transmitStepEmitsTheNextEvent : Obligations.TransmitStepEmitsTheNextEvent := by
  intro s hc hs
  obtain ⟨e, es, hp⟩ := List.exists_cons_of_ne_nil (pendingEvents_ne_nil hc hs)
  refine ⟨e, es, s.emitThen e es, ?_, execTransmit_of_pending hp, ?_⟩
  · cases hq : s.seq with
    | none => exact pendingEvents_of_none hq ▸ hp
    | some l => exact pendingEvents_of_some hq ▸ hp
  · rw [emitThen_eq]
    exact ⟨rfl, rfl, rfl, rfl, rfl⟩

/-- Settles O34: the bits are `frameBits`, blocks of 24. -/
theorem frameIsPixelsAscendingMsbFirst : Obligations.FrameIsPixelsAscendingMsbFirst :=
  fun c fg bg => ⟨frameBits c fg bg, length_frameBits c fg bg, fun _ _ => getElem?_frameBits fg bg,
    frameEvents_eq_ite c fg bg⟩

/-- Settles O36: the string samples the data bits of any events, and a frame's are `frameBits`, in which neither
mode nor framing occurs. -/
theorem stringReceivesExactlyTheDataBits : Obligations.StringReceivesExactlyTheDataBits := by
  intro c fg bg m f lead trail d c'
  rw [sampled_waveform fun _ => rfl, filterMap_dataBit?_frameEvents]
  rfl

/-- Settles O37: each event drives DAT only while CLK is low, whatever events came before it. -/
theorem datIsDrivenOnlyWhileClkIsLow : Obligations.DatIsDrivenOnlyWhileClkIsLow :=
  fun c fg bg lead trail _ => datSteady_waveform (fun _ => rfl) lead trail 0 (frameEvents c fg bg)

/-- Settles O38: the framing's cycles, and those of `24*N` bits with `3*N - 1` gaps between their bytes. -/
theorem frameTakesTheDerivedCycles : Obligations.FrameTakesTheDerivedCycles := by
  intro c fg bg lead trail
  rw [frameEvents_eq_ite]
  have hnil (k : Nat) : cycles (waveform c lead trail k []) = 0 := rfl
  by_cases hm : c.mode = .manual
  · have hgap : gapCycles c = 0 := if_pos hm
    rw [if_pos hm, if_pos hm, List.append_assoc, List.singleton_append, cycles_waveform_settle_cons,
      cycles_waveform_frameBits, cycles_waveform_settle_cons, hnil, hgap]
    omega
  · have hgap : gapCycles c = c.byteGap := if_neg hm
    rw [if_neg hm, if_neg hm]
    by_cases hf : c.frame = true
    · rw [if_pos hf, if_pos hf, List.append_assoc, List.singleton_append, cycles_waveform_frmLow_cons,
        cycles_waveform_frameBits, cycles_waveform_frmHigh_cons, hnil, hgap]
      omega
    · have hbits := cycles_waveform_frameBits c fg bg lead trail []
      rw [List.append_nil, hnil, hgap] at hbits
      rw [if_neg hf, if_neg hf, hbits]
      omega

/-- Settles O39: what is pending at the start is the frame. -/
theorem transmitSendsTheWholeFrame : Obligations.TransmitSendsTheWholeFrame := by
  intro s hc hb hh hs
  have hp := pendingEvents_of_none hs
  refine ⟨fun k hk => hp ▸ engineRun_transmit_of_lt hb hh (hp ▸ hk), ?_⟩
  rw [engineRun_transmit hb hh hp (frameEvents_ne_nil s.fg s.bg (n_ne_zero hc)), ← hs]

/-- Settles O33: compositing by definition, the buffers by what a step of TRANSMIT can do. -/
theorem transmittedValueComposites : Obligations.TransmittedValueComposites := by
  refine ⟨fun c fg bg i => by simp [txValue], fun s t he => ?_⟩
  obtain ⟨e, es, -, rfl⟩ := execTransmit_cases he
  rw [emitThen_eq]
  exact ⟨rfl, rfl⟩

/-- Settles O35: the table is `linesAfter`, where the pin actions end. -/
theorem emitLeavesTheLinesOfTheTable : Obligations.EmitLeavesTheLinesOfTheTable := by
  refine fun s e lead trail => ⟨?_, (foldl_drive_pinActions s.cfg lead trail e s.lines).symm⟩
  cases e with
  | bit | settle | frmLow | frmHigh | reset => rfl

end Sys2Proof.Machine
end

section
/-! PROOFS. 60_exceptions.md: the sticky flags (R107 to R115). Of an access and of a command it is said once what they do
to the flags: an access raises one, or clears by a STATUS write, or leaves them; a command can only raise DROP. -/

namespace Sys2Proof.Machine

@[simp] theorem Status.flag_setBusy (st : Status) (b : Bool) (f : StickyFlag) :
    ({ st with busy := b } : Status).flag f = st.flag f := by cases f <;> rfl

/-! An access. -/

/-- What an access can do to the sticky flags (60_exceptions.md R113, R115). -/
theorem access_flag_cases (s : State) (t : Access) :
    (∃ f, (s.access t).1.status = s.status.set f) ∨
    (∀ g, (s.access t).1.status.flag g = s.status.flag g) ∨
    (t.kind = .write ∧ t.size = 4 ∧ t.addr = 0x004 ∧ (s.access t).1.status = s.status.clearBy t.data) := by
  obtain ⟨f, -, ha⟩ | ha | ⟨hk, hs, ⟨-, -, -, ha⟩ | ⟨h4, ha⟩ | ha | ha | ha | ha | ⟨b, i, -, -, -, -, ha⟩⟩ :=
    access_state_cases s t
  case inl => exact .inl ⟨f, by rw [ha, raise_status]⟩
  case inr.inr.inr.inl => exact .inr (.inr ⟨hk, hs, h4, by rw [ha, clearFlags_status]⟩)
  case inr.inr.inr.inr.inr.inr.inr.inr =>
    obtain ⟨-, hw⟩ | ⟨-, hw⟩ := writePixel_cases s b i (wordColor t.data)
    · exact .inr (.inl fun g => by rw [ha, hw, setBuffer_status])
    · exact .inl ⟨.drop, by rw [ha, hw, raise_status]⟩
  all_goals exact .inr (.inl (by simp [ha]))

theorem access_atMostOneRaised (s : State) (t : Access) : s.AtMostOneRaised (s.access t).1 := by
  obtain ⟨f, h⟩ | h | ⟨-, -, -, h⟩ := access_flag_cases s t
  · exact ⟨f, fun g hg => by simp [h, Status.flag_set, hg]⟩
  · exact ⟨.drop, fun g _ => by simp [h]⟩
  · exact ⟨.drop, fun g _ => by rw [h, Status.flag_clearBy, Bool.and_eq_true]; exact And.left⟩

/-- An access that takes a flag back is a STATUS write with a 1 in the flag's bit (10_state.md R24). -/
theorem access_flag_falls {s : State} {t : Access} {f : StickyFlag} (h1 : s.status.flag f = true)
    (h0 : (s.access t).1.status.flag f = false) :
    t.kind = .write ∧ t.size = 4 ∧ t.addr = 0x004 ∧ t.data.getLsbD f.code = true := by
  obtain ⟨g, h⟩ | h | ⟨hk, hs, h4, h⟩ := access_flag_cases s t
  · simp [h, Status.flag_set, h1] at h0
  · simp [h, h1] at h0
  · exact ⟨hk, hs, h4, by simpa [h, Status.flag_clearBy, h1] using h0⟩

theorem hostStep_flag_falls {s : State} {f : StickyFlag} (h1 : s.status.flag f = true)
    (h0 : s.hostStep.status.flag f = false) :
    ∃ p e, s.host.prog[s.host.pc]? = some (.write p 4 e) ∧ p.offsetIn s.host.regs = 0x004 ∧
      (e.eval s.host.regs).getLsbD f.code = true := by
  obtain ⟨x, h⟩ | ⟨t, x, h, hw⟩ := hostStep_access_cases s
  · simp [h, h1] at h0
  · rw [h] at h0
    obtain ⟨hk, hs, h4, hbit⟩ := access_flag_falls h1 h0
    obtain ⟨p, e, hop, ha, hd⟩ := hw hk
    exact ⟨p, e, hs ▸ hop, ha ▸ h4, hd ▸ hbit⟩

/-! A command. -/

/-- The Engine step of a command leaves every flag but DROP, which it never takes back
(60_exceptions.md R113, R115). -/
theorem exec_flags {s t : State} {i : Instr} (he : exec i s = .next t) :
    (∀ f, f ≠ .drop → t.status.flag f = s.status.flag f) ∧ (s.status.drop = true → t.status.drop = true) := by
  by_cases hi : i = .transmit
  · subst hi
    obtain ⟨e, es, -, rfl⟩ := execTransmit_cases he
    rw [emitThen_eq]
    exact ⟨fun f _ => Status.flag_setBusy _ _ f, id⟩
  · obtain ⟨fg, bg, r, st, hx, -, hflags, hdrop, -⟩ := exec_of_ne_transmit s hi
    cases hx.symm.trans he
    exact ⟨hflags, hdrop⟩

theorem exec_keeps_flag {s t : State} {i : Instr} (he : exec i s = .next t) {f : StickyFlag}
    (h1 : s.status.flag f = true) : t.status.flag f = true := by
  obtain ⟨hflags, hdrop⟩ := exec_flags he
  by_cases hf : f = .drop
  · subst hf
    exact hdrop h1
  · rw [hflags f hf, h1]

/-! The obligations. -/

/-- Settles O17: an access raises one flag at most, a command DROP alone, and each example of the order is decided by
the first check it fails. -/
theorem atMostOneConditionPerStep : Obligations.AtMostOneConditionPerStep := by
  refine fun s => ⟨access_atMostOneRaised s, fun i t he => (exec_flags he).1, fun hb v => ⟨?_, ?_, ?_⟩⟩
  · rw [access_buserr (.inr (show (0x002 : Word).extractLsb' 0 2 ≠ 0 by decide))]
    rfl
  · rw [access_write_cmd, cmdWrite_eq, if_pos hb]
    rfl
  · intro a hal hlo hhi
    rw [access_window_of_busy (b := .fg) hb nofun hal (le_of_add_le_left hlo) hhi]
    rfl

/-- Settles O54: no command takes a flag back, and of the accesses only a STATUS write does, where its bit is 1. -/
theorem flagFallsOnlyByStatusWriteOrReset : Obligations.FlagFallsOnlyByStatusWriteOrReset := by
  intro s t f h h1 h0
  obtain ⟨-, ⟨hturn, rfl⟩ | ⟨-, -, rfl⟩ | ⟨-, -, i, -, he⟩ | ⟨hturn, -⟩⟩ := step_cases h
  · obtain ⟨p, e, hop, h4, hbit⟩ := hostStep_flag_falls (by simpa using h1) h0
    simp only [takeTurn_host] at hop h4 hbit
    exact .inr ⟨hturn, p, 4, e, hop, rfl, h4, hbit⟩
  · simp [h1] at h0
  · simp [exec_keeps_flag he (by simpa using h1)] at h0
  · exact .inl hturn

end Sys2Proof.Machine
end

section
/-! PROOFS. 70_reset_and_hazards.md: what reset sets (R124, R125), what no step changes (R125, 10_state.md R40), and
that every accepted command completes (R136). -/

namespace Sys2Proof.Machine

/-! The configuration and the trace (70_reset_and_hazards.md R125, 10_state.md R40). -/

@[simp] theorem access_cfg (s : State) (t : Access) : (s.access t).1.cfg = s.cfg := by
  obtain ⟨f, -, ha⟩ | ha | ⟨-, -, ⟨-, -, -, ha⟩ | ⟨-, ha⟩ | ha | ha | ha | ha | ⟨b, i, -, -, -, -, ha⟩⟩ :=
    access_state_cases s t
  all_goals simp [ha]

@[simp] theorem hostStep_cfg (s : State) : s.hostStep.cfg = s.cfg := by
  obtain ⟨x, h⟩ | ⟨t, x, h, -⟩ := hostStep_access_cases s
  · rw [h]
  · rw [h]; exact access_cfg s t

/-- The Engine step of a command keeps the configuration, and emits one event or none. -/
theorem exec_cfg_trace {s t : State} {i : Instr} (he : exec i s = .next t) :
    t.cfg = s.cfg ∧ (t.trace = s.trace ∨ ∃ e, t.trace = s.trace ++ [e]) := by
  by_cases hi : i = .transmit
  · subst hi
    obtain ⟨e, es, -, rfl⟩ := execTransmit_cases he
    rw [emitThen_eq]
    exact ⟨rfl, .inr ⟨e, rfl⟩⟩
  · obtain ⟨fg, bg, r, st, hx, -⟩ := exec_of_ne_transmit s hi
    cases hx.symm.trans he
    exact ⟨rfl, .inl rfl⟩

/-! The held command (30_encoding.md R67, 45_transmit.md R98, R99). -/

/-- What a TRANSMIT still has to emit is the end of the longest frame at most. -/
theorem State.Inv.length_pendingEvents_le {s : State} (h : s.Inv) :
    s.pendingEvents.length ≤ 24 * s.cfg.n + 2 := by
  obtain ⟨sent, -, -, hframe, -⟩ := h.frameSentBut_pending
  calc s.pendingEvents.length
    _ ≤ (sent ++ s.pendingEvents).length := by simp
    _ = (frameEvents s.cfg s.fg s.bg).length := by rw [hframe]
    _ ≤ 24 * s.cfg.n + 2 := length_frameEvents_le s.cfg s.fg s.bg

/-- Every command but TRANSMIT completes in one Engine step. -/
theorem engineStep_completes_of_ne_transmit {s : State} (hb : s.status.busy = true) {i : Instr}
    (hheld : s.heldInstr = some i) (hi : i ≠ .transmit) :
    ∃ t, engineStep s = .next t ∧ t.status.busy = false := by
  obtain ⟨fg, bg, r, st, hx, hidle, -⟩ := exec_of_ne_transmit s hi
  exact ⟨_, (engineStep_of_held hb hheld).trans hx, hidle⟩

/-! Reset (70_reset_and_hazards.md R124). -/

theorem Status.toWord_atReset : Status.atReset.toWord = 0 := by decide

/-! The obligations. -/

/-- Settles O48: TRANSMIT takes a step for each pending event, and any other command takes one. -/
theorem everyAcceptedCommandCompletes : Obligations.EveryAcceptedCommandCompletes := by
  intro s h
  cases hb : s.status.busy with
  | false => exact ⟨0, s, Nat.zero_le _, rfl, hb⟩
  | true =>
    obtain ⟨i, hheld⟩ := h.held hb
    by_cases hi : i = .transmit
    · exact ⟨_, _, h.length_pendingEvents_le, engineRun_transmit hb (hi ▸ hheld) rfl h.pendingEvents_ne_nil, rfl⟩
    · obtain ⟨t, hstep, hidle⟩ := engineStep_completes_of_ne_transmit hb hheld hi
      exact ⟨1, t, by omega, engineRun_succ hstep 0, hidle⟩

/-- Settles O49: the Host's step appends nothing, the Engine's one event at most, reset its own. -/
theorem configurationIsFixedAndTraceOnlyGrows : Obligations.ConfigurationIsFixedAndTraceOnlyGrows := by
  intro s t h
  obtain ⟨-, ⟨-, rfl⟩ | ⟨-, -, rfl⟩ | ⟨-, -, i, -, he⟩ | ⟨-, rfl⟩⟩ := step_cases h
  · exact ⟨by simp, .inl (by simp)⟩
  · exact ⟨by simp, .inl (by simp)⟩
  · simpa using exec_cfg_trace he
  · exact ⟨by simp, .inr ⟨.reset, by simp⟩⟩

/-- Settles O44: reset's turn is `resetBlock`, which sets each piece of state and appends Reset. -/
theorem resetSetsEveryPieceOfState : Obligations.ResetSetsEveryPieceOfState := by
  refine ⟨fun _ => rfl, fun s ts hc h => ⟨({ s with turns := ts } : State).resetBlock, step_of_cons hc h, ?_⟩⟩
  exact ⟨rfl, rfl, rfl, fun _ => ⟨rfl, rfl⟩, rfl, rfl, rfl, rfl, rfl, Status.toWord_atReset, rfl, rfl, rfl, rfl⟩

end Sys2Proof.Machine
end

section
/-! PROOFS. The two stops by name of the model itself (notes/assumptions/8.md): what TRANSMIT does with no event
pending (45_transmit.md R99), and what the Engine does when the latch holds no legal command (30_encoding.md R67). -/

namespace Sys2Proof.Machine

/-- With no event pending R99 has no `head` to emit, so TRANSMIT stops: the case `execTransmit_of_pending` leaves. -/
theorem execTransmit_of_pending_nil {s : State} (h : s.pendingEvents = []) :
    exec .transmit s = .fault .sequencerEmpty := by
  change execTransmit s = _
  rw [execTransmit, h]

/-- A busy Engine with no legal command to step stops: the case `engineStep_of_idle` and `engineStep_of_held` leave. -/
theorem engineStep_of_held_none {s : State} (hb : s.status.busy = true) (hi : s.heldInstr = none) :
    engineStep s = .fault .heldCommandIllegal := by
  rw [engineStep, if_pos hb, hi]

/-- Settles O32: an empty sequencer list is all that is pending, and a busy Engine reads its command from the latch. -/
theorem unreachableStatesStopByName : Obligations.UnreachableStatesStopByName :=
  ⟨fun _ hs => execTransmit_of_pending_nil (pendingEvents_of_some hs), fun _ => engineStep_of_held_none⟩

end Sys2Proof.Machine
end
